-- ==== Sys2Proof/Word.lean ====
section
/-! DEFINITION. The word type, the two ways of reading a word, the fourteen register names and the
operands built from them (spec/00_scope.md R9 to R11, spec/10_state.md R20, R21, spec/30_encoding.md R91). -/

namespace Sys2Proof

/-- The contents of a register, a cell or a literal field: 32 bits, bit 0 least significant
(R9, R10). -/
abbrev Word := BitVec 32

/-- `mask32(v) = v mod 2^32` for any integer `v` (R10). -/
abbrev mask32 (v : Int) : Word := BitVec.ofInt 32 v

/-- `s32(w)`: the signed two's-complement reading of a word (R10). -/
abbrev s32 (w : Word) : Int := w.toInt

/-- The fourteen register names of R21, in the order of their indices 0 to 13. -/
inductive Reg where
  | r0 | r1 | r2 | r3 | r4 | r5 | r6 | r7
  | pc | sp | ir | mar | mdr | psw
  deriving DecidableEq, Repr

/-- An operand: a tagged union over the four addressing modes (R91). The display string a parsed
operand also carries is not read by the Engine and stays with the Parser. -/
inductive Operand where
  /-- IMMEDIATE: a literal value. -/
  | imm (v : Word)
  /-- REGISTER: a register's value. -/
  | reg (r : Reg)
  /-- DIRECT: the cell at a literal address. -/
  | dir (a : Word)
  /-- INDIRECT: the cell whose address a register holds. -/
  | ind (r : Reg)
  deriving DecidableEq, Repr

end Sys2Proof
end

