-- ==== Sys2Proof/Config.lean ====
section
/-! DEFINITION. What is fixed for the machine: the twelve instruction types, the control signals, the
constants of spec/00_scope.md R6, and the three parameters the spec names with two or more admissible
settings. The settings the spec itself takes stand in Machine/Settings.lean. -/

namespace Sys2Proof

/-- The type of an instruction value: a closed enumeration of twelve (R90), in the order of
spec/opcode_table.json. -/
inductive InstrType where
  | nop | load | store | add | sub | mul | div | mov | cmp | jmp | jz | jnz
  deriving DecidableEq, Repr

/-- The values of the ALU operation tag (R41). -/
inductive AluOp where
  | nop | add | sub | mul | div | mov | cmp
  deriving DecidableEq, Repr

/-- The ten control signals (R38): outputs only, read by no rule that changes state (R39). -/
structure ControlSignals where
  memRead  : Bool
  memWrite : Bool
  regWrite : Bool
  aluOp    : AluOp
  pcWrite  : Bool
  irWrite  : Bool
  regDst   : Bool
  memToReg : Bool
  jump     : Bool
  branch   : Bool
  deriving DecidableEq, Repr

/-- The idle value of the control signals: all false, tag NOP (R40). -/
def ControlSignals.idle : ControlSignals :=
  ⟨false, false, false, .nop, false, false, false, false, false, false⟩

/-- JUMP_TARGET_MODE (R6, R211): how the operand of a jump becomes its target. -/
inductive JumpTargetMode where
  /-- The target is the operand's value. -/
  | value
  /-- A memory operand gives its address as the target. -/
  | address
  deriving DecidableEq, Repr

/-- How DIV and CMP read a 32-bit pattern (R170). -/
inductive ValueReading where
  | signed | unsigned
  deriving DecidableEq, Repr

/-- The parameters of R6 that have more than one admissible setting. -/
structure Config where
  /-- JUMP_TARGET_MODE. -/
  jumpTargetMode : JumpTargetMode
  /-- The value interpretation for DIV and CMP. -/
  reading : ValueReading
  /-- DECODE_SIGNALS (R137). -/
  decodeSignals : InstrType → ControlSignals

/-- `ILEN`: what FETCH adds to PC (R6, R135). -/
def Config.ilen : Word := 4

/-- `SP_RESET` (R6, R46). -/
def Config.spReset : Word := 1000

/-- Whether the Parser attaches the optional 32-bit encoding to the instruction value it creates. A free
value: the spec calls the encoding optional and says no more (R90; DESIGN CHOICE, log entry 23). -/
opaque Config.parserAttachesEncoding : Bool

/-- `NPHASE`, the total step count (R6, R34). -/
def Config.totalSteps : Nat := 5

end Sys2Proof
end

