-- ==== Sys2Proof/Machine/Flags.lean ====
section
/-! DEFINITION. The integer laws (spec/41_arithmetic.md R170, R176; spec/00_scope.md R10) and the flags
(spec/10_state.md R28 to R30; spec/43_compare_jump_nop.md R210): operands are read as integers, the
result is exact, and `mask32` narrows it at the end. -/

namespace Sys2Proof.Machine

/-- The integer a word stands for under a reading (R170). -/
def readAs (reading : ValueReading) (w : Word) : Int :=
  match reading with
  | .signed => s32 w
  | .unsigned => (w.toNat : Int)

/-- `mask32(a + b)` (R172). -/
def addWords (a b : Word) : Word := mask32 ((a.toNat : Int) + (b.toNat : Int))

/-- `mask32(a - b)` (R173). -/
def subWords (a b : Word) : Word := mask32 ((a.toNat : Int) - (b.toNat : Int))

/-- `mask32(a * b)`: the low 32 bits of the exact product (R174). -/
def mulWords (a b : Word) : Word := mask32 ((a.toNat : Int) * (b.toNat : Int))

/-- `mask32(trunc(a / b))`, the quotient rounded toward zero, for `b` not 0 (R175, R10). -/
def divWords (reading : ValueReading) (a b : Word) : Word :=
  mask32 (Int.tdiv (readAs reading a) (readAs reading b))

/-- The weight of the Zero flag, bit 6 of PSW (R9, R28). -/
def zeroBit : Word := 0x40

/-- The weight of the Negative flag, bit 7 of PSW (R9, R28). -/
def negativeBit : Word := 0x80

/-- PSW after a CMP: 0, then bit 6 if the exact difference is zero and bit 7 if it is negative, each
checked on its own (R210). -/
def compareFlags (reading : ValueReading) (a b : Word) : Word :=
  let d := readAs reading a - readAs reading b
  (if d = 0 then zeroBit else 0) ||| (if d < 0 then negativeBit else 0)

/-- `psw[6] = 1`, the test of JZ and JNZ (R30). -/
def zeroFlag (psw : Word) : Bool := psw.getLsbD 6

/-- `psw[7] = 1`; no instruction tests it (R28, R215). -/
def negativeFlag (psw : Word) : Bool := psw.getLsbD 7

end Sys2Proof.Machine
end

