-- ==== Sys2Proof/Syntax.lean ====
section
/-! DEFINITION. The instruction value the Engine executes: one constructor per row of
spec/opcode_table.json, operands in assembly order (spec/30_encoding.md R90, R92). -/

namespace Sys2Proof

/-- An instruction value. Its type and its operands are all the Engine's behaviour depends on (R90);
the arity of each type is the constructor's (R92). -/
inductive Instr where
  | nop
  | load  (dst addr : Operand)
  | store (src addr : Operand)
  | add   (dst src1 src2 : Operand)
  | sub   (dst src1 src2 : Operand)
  | mul   (dst src1 src2 : Operand)
  | div   (dst src1 src2 : Operand)
  | mov   (dst src : Operand)
  | cmp   (left right : Operand)
  | jmp   (target : Operand)
  | jz    (target : Operand)
  | jnz   (target : Operand)
  deriving DecidableEq, Repr

/-- The type of an instruction value (R90). -/
def Instr.type : Instr → InstrType
  | .nop => .nop
  | .load _ _ => .load
  | .store _ _ => .store
  | .add _ _ _ => .add
  | .sub _ _ _ => .sub
  | .mul _ _ _ => .mul
  | .div _ _ _ => .div
  | .mov _ _ => .mov
  | .cmp _ _ => .cmp
  | .jmp _ => .jmp
  | .jz _ => .jz
  | .jnz _ => .jnz

/-- The operand sequence `op[0], op[1], ...` of an instruction value (R90, R92). -/
def Instr.operands : Instr → List Operand
  | .nop => []
  | .load d a => [d, a]
  | .store s a => [s, a]
  | .add d a b => [d, a, b]
  | .sub d a b => [d, a, b]
  | .mul d a b => [d, a, b]
  | .div d a b => [d, a, b]
  | .mov d s => [d, s]
  | .cmp a b => [a, b]
  | .jmp t => [t]
  | .jz t => [t]
  | .jnz t => [t]

/-- The fixed arity of each type (R92). -/
def InstrType.arity : InstrType → Nat
  | .nop => 0
  | .jmp | .jz | .jnz => 1
  | .load | .store | .mov | .cmp => 2
  | .add | .sub | .mul | .div => 3

end Sys2Proof
end

