-- ==== Sys2Proof/WellFormed.lean ====
section
/-! DEFINITION. Well-formed instructions (spec/30_encoding.md R94). Clauses (a) type, (b) arity and
(c) register index hold of every term of `Instr` by its type; clause (d) is checked here. -/

namespace Sys2Proof

/-- An operand LOAD and STORE may take as their address: DIRECT or INDIRECT (R94 (d)). -/
def Operand.isAddress : Operand → Bool
  | .dir _ | .ind _ => true
  | .imm _ | .reg _ => false

/-- `WF(i)` of R94. -/
def Instr.wf : Instr → Bool
  | .load _ addr => addr.isAddress
  | .store _ addr => addr.isAddress
  | .nop | .add .. | .sub .. | .mul .. | .div .. | .mov .. | .cmp .. | .jmp _ | .jz _ | .jnz _ => true

end Sys2Proof
end

