-- ==== Sys2Proof/Decode.lean ====
section
/-! DEFINITION. The two encodings of an instruction value. (1) The instruction port, field by field
and without loss: its decoder is total on any bundle and rejects by name, its encoder follows
(spec/30_encoding.md R95, R107). (2) The 32-bit display word, lossy, which the Engine never decodes
(R100 to R105): its encoder, the table row its opcode byte selects, and one representative instruction for
each word the Encoder produces, which nothing executes. -/

namespace Sys2Proof

/-! ### Opcodes and register indices -/

/-- The opcode byte of each type (R101). -/
def InstrType.opcode : InstrType → BitVec 8
  | .nop => 0x00
  | .load => 0x01
  | .store => 0x02
  | .add => 0x10
  | .sub => 0x11
  | .mul => 0x12
  | .div => 0x13
  | .mov => 0x20
  | .cmp => 0x21
  | .jmp => 0x30
  | .jz => 0x31
  | .jnz => 0x32

/-- The twelve types, in the order of spec/opcode_table.json. -/
def InstrType.all : List InstrType :=
  [.nop, .load, .store, .add, .sub, .mul, .div, .mov, .cmp, .jmp, .jz, .jnz]

/-- The type whose opcode a byte is, if there is one (R101, R107). -/
def InstrType.ofOpcode (b : BitVec 8) : Option InstrType :=
  InstrType.all.find? (fun t => t.opcode == b)

/-- The index 0 to 13 of a register name (R21). -/
def Reg.index : Reg → Nat
  | .r0 => 0
  | .r1 => 1
  | .r2 => 2
  | .r3 => 3
  | .r4 => 4
  | .r5 => 5
  | .r6 => 6
  | .r7 => 7
  | .pc => 8
  | .sp => 9
  | .ir => 10
  | .mar => 11
  | .mdr => 12
  | .psw => 13

/-- The fourteen registers in index order (R21). -/
def Reg.all : List Reg :=
  [.r0, .r1, .r2, .r3, .r4, .r5, .r6, .r7, .pc, .sp, .ir, .mar, .mdr, .psw]

/-- The register of an index; 14 and above name none (R21, R94 (c)). -/
def Reg.ofIndex (n : Nat) : Option Reg := Reg.all[n]?

/-! ### The instruction port -/

/-- The numeric causes of a PreconditionFault (R233). -/
inductive PreconditionCause where
  /-- Code 1: a run was started with no instruction presented. -/
  | noInstruction
  /-- Code 2: the operand count differs from the arity of the type. -/
  | arityMismatch
  /-- Code 3: the type is not one of the twelve. -/
  | unknownType
  deriving DecidableEq, Repr

/-- The cause codes of R233. -/
def PreconditionCause.code : PreconditionCause → Nat
  | .noInstruction => 1
  | .arityMismatch => 2
  | .unknownType => 3

/-- One operand lane `op_k` of the port: mode 0 IMMEDIATE, 1 REGISTER, 2 DIRECT, 3 INDIRECT (R95). -/
structure OperandLane where
  mode : BitVec 2
  reg  : BitVec 4
  val  : Word
  deriving DecidableEq, Repr

/-- The input bundle `instr` of the Engine (R95). -/
structure Port where
  /-- `instr_valid`. -/
  valid : Bool
  /-- `instr_type`: an opcode value of R101. -/
  type  : BitVec 8
  /-- `instr_nops`. -/
  nops  : BitVec 2
  op0   : OperandLane
  op1   : OperandLane
  op2   : OperandLane
  deriving DecidableEq, Repr

/-- Why a bundle carries no instruction value. -/
inductive PortReject where
  /-- A precondition the Engine checks at entry fails (R133). -/
  | precondition (cause : PreconditionCause)
  /-- A REGISTER or INDIRECT lane in use names register 14 or 15, outside R94 (c); the Engine does not
  check it and the spec gives it no meaning (DESIGN CHOICE, log entry 10). -/
  | registerIndex
  deriving DecidableEq, Repr

/-- The operand a lane carries; `none` for a register number 14 or 15 in a mode that uses it (R95). -/
def OperandLane.operand (l : OperandLane) : Option Operand :=
  match l.mode.toNat with
  | 0 => some (.imm l.val)
  | 1 => (Reg.ofIndex l.reg.toNat).map .reg
  | 2 => some (.dir l.val)
  | _ => (Reg.ofIndex l.reg.toNat).map .ind

/-- The instruction value of a type and an operand sequence; `none` when the number of operands is not
the arity of the type (R92). -/
def InstrType.build : InstrType → List Operand → Option Instr
  | .nop, [] => some .nop
  | .load, [d, a] => some (.load d a)
  | .store, [s, a] => some (.store s a)
  | .add, [d, a, b] => some (.add d a b)
  | .sub, [d, a, b] => some (.sub d a b)
  | .mul, [d, a, b] => some (.mul d a b)
  | .div, [d, a, b] => some (.div d a b)
  | .mov, [d, s] => some (.mov d s)
  | .cmp, [a, b] => some (.cmp a b)
  | .jmp, [t] => some (.jmp t)
  | .jz, [t] => some (.jz t)
  | .jnz, [t] => some (.jnz t)
  | _, _ => none

/-- The operands of a list of lanes, all or none. -/
def OperandLane.operands : List OperandLane → Option (List Operand)
  | [] => some []
  | l :: ls =>
    match l.operand, OperandLane.operands ls with
    | some o, some os => some (o :: os)
    | _, _ => none

/-- The instruction value a bundle carries, with the checks of R133 in its order: presence (cause 1),
type (cause 3), operand count (cause 2). Lanes beyond the operand count are not read. -/
def decodePort (p : Port) : Except PortReject Instr :=
  if p.valid = false then .error (.precondition .noInstruction)
  else
    match InstrType.ofOpcode p.type with
    | none => .error (.precondition .unknownType)
    | some t =>
      if p.nops.toNat ≠ t.arity then .error (.precondition .arityMismatch)
      else
        match OperandLane.operands ([p.op0, p.op1, p.op2].take t.arity) with
        | none => .error .registerIndex
        | some ops =>
          match t.build ops with
          | some i => .ok i
          | none => .error (.precondition .arityMismatch)

/-- The lane that carries an operand; a field its mode does not use is 0 (R95). -/
def Operand.lane : Operand → OperandLane
  | .imm v => ⟨0, 0, v⟩
  | .reg r => ⟨1, BitVec.ofNat 4 r.index, 0⟩
  | .dir a => ⟨2, 0, a⟩
  | .ind r => ⟨3, BitVec.ofNat 4 r.index, 0⟩

/-- A lane that carries nothing. -/
def OperandLane.blank : OperandLane := ⟨0, 0, 0⟩

/-- The bundle that carries an instruction value (R95). -/
def encodePort (i : Instr) : Port where
  valid := true
  type := i.type.opcode
  nops := BitVec.ofNat 2 i.type.arity
  op0 := (i.operands[0]?.map Operand.lane).getD OperandLane.blank
  op1 := (i.operands[1]?.map Operand.lane).getD OperandLane.blank
  op2 := (i.operands[2]?.map Operand.lane).getD OperandLane.blank

/-- The bundle a host that presents nothing drives: `instr_valid = 0` (R95, R133). -/
def Port.empty : Port := ⟨false, 0, 0, OperandLane.blank, OperandLane.blank, OperandLane.blank⟩

/-! ### The 32-bit display word -/

/-- The operand byte of R102. -/
def Operand.byte : Operand → BitVec 8
  | .reg r => BitVec.ofNat 8 r.index
  | .ind r => 0x80#8 ||| BitVec.ofNat 8 r.index
  | .imm v => v.extractLsb' 0 8
  | .dir a => a.extractLsb' 0 8

/-- `enc = (opcode << 24) | (A << 16) | (B << 8)`, with the bytes of at most the first two operands
(R100). -/
def encode (i : Instr) : Word :=
  let byteOf (k : Nat) : BitVec 8 := (i.operands[k]?.map Operand.byte).getD 0
  ((i.type.opcode.setWidth 32) <<< 24) ||| (((byteOf 0).setWidth 32) <<< 16)
    ||| (((byteOf 1).setWidth 32) <<< 8)

/-- The type of a display word: its opcode byte, the one thing the word alone tells (R105). -/
def wordType (w : Word) : Option InstrType := InstrType.ofOpcode (w.extractLsb' 24 8)

/-- The bits of a display word the format of a type fixes: the opcode byte and the bytes always 0 (R100,
R101). -/
def InstrType.mask (t : InstrType) : Word :=
  match t.arity with
  | 0 => 0xFFFFFFFF
  | 1 => 0xFF00FFFF
  | _ => 0xFF0000FF

/-- The row of spec/opcode_table.json a word belongs to: its opcode byte is that of the type and the bytes
the format leaves 0 are 0. Every other word is produced by nothing (R101, R107). -/
def tableRow (w : Word) : Option InstrType :=
  InstrType.all.find? fun t => w &&& t.mask == (t.opcode.setWidth 32) <<< 24

/-- One instruction value of each type, the same for every word: every operand R0, and the address 0 where
R94 (d) asks for an address. DESIGN CHOICE (log entry 2). -/
def InstrType.specimen : InstrType → Instr
  | .nop => .nop
  | .load => .load (.reg .r0) (.dir 0)
  | .store => .store (.reg .r0) (.dir 0)
  | .add => .add (.reg .r0) (.reg .r0) (.reg .r0)
  | .sub => .sub (.reg .r0) (.reg .r0) (.reg .r0)
  | .mul => .mul (.reg .r0) (.reg .r0) (.reg .r0)
  | .div => .div (.reg .r0) (.reg .r0) (.reg .r0)
  | .mov => .mov (.reg .r0) (.reg .r0)
  | .cmp => .cmp (.reg .r0) (.reg .r0)
  | .jmp => .jmp (.reg .r0)
  | .jz => .jz (.reg .r0)
  | .jnz => .jnz (.reg .r0)

/-- One operand with a given operand byte, for a data position. DESIGN CHOICE (log entry 2): the byte
does not tell `Reg(r)` from a literal, nor `Ind(r)` from a literal (R105); the register forms are
taken where there are any. -/
def Operand.ofByte (b : BitVec 8) : Operand :=
  match Reg.ofIndex b.toNat, Reg.ofIndex (b.toNat - 0x80) with
  | some r, _ => .reg r
  | none, some r => if 0x80 ≤ b.toNat then .ind r else .imm (b.setWidth 32)
  | none, none => .imm (b.setWidth 32)

/-- One operand with a given operand byte, for the address position of LOAD and STORE, which admits
DIRECT and INDIRECT only (R94 (d)). DESIGN CHOICE (log entry 2). -/
def Operand.ofAddressByte (b : BitVec 8) : Operand :=
  match Reg.ofIndex (b.toNat - 0x80) with
  | some r => if 0x80 ≤ b.toNat then .ind r else .dir (b.setWidth 32)
  | none => .dir (b.setWidth 32)

/-- The operands read off a display word for a type; a third operand, which the word does not hold, is
read off the always-zero byte 7:0 (log entry 2). -/
def wordOperands (t : InstrType) (w : Word) : List Operand :=
  let a := w.extractLsb' 16 8
  let b := w.extractLsb' 8 8
  match t with
  | .nop => []
  | .jmp | .jz | .jnz => [Operand.ofByte a]
  | .mov | .cmp => [Operand.ofByte a, Operand.ofByte b]
  | .load | .store => [Operand.ofByte a, Operand.ofAddressByte b]
  | .add | .sub | .mul | .div =>
    [Operand.ofByte a, Operand.ofByte b, Operand.ofByte (w.extractLsb' 0 8)]

/-- A representative instruction value of a display word: one well-formed instruction the Encoder gives
this word, and `none` for a word the Encoder produces for no instruction (R107). It chooses from the
Encoder's preimages of the word and is no decoder: the word does not determine its instruction (R105), and
neither `exec` nor `step` calls this function. DESIGN CHOICE (log entry 2). -/
def representative (w : Word) : Option Instr :=
  match wordType w with
  | none => none
  | some t =>
    match t.build (wordOperands t w) with
    | some i => if encode i = w then some i else none
    | none => none

/-- The representative of a table word, given as a number of 32 bits (spec/opcode_table.json numbers
bit 0 as the least significant bit, as R9 does). It answers the pipeline's question about a table row; its
result is executed nowhere (R105), not by `State.withFetchWord` either. The machine's decoder is
`decodePort` (log entry 2). -/
def decodeTableWord (nbits w : Nat) : Option Instr :=
  if nbits ≤ 32 ∧ w < 2 ^ 32 then representative (BitVec.ofNat 32 w) else none

end Sys2Proof
end

