-- ==== Sys2Proof/Machine/State.lean ====
section
/-! DEFINITION. The state of the machine as plain data (spec/10_state.md, spec/20_memory.md R60 to R62),
the host's pending inputs (spec/40_phase_engine.md R131), the ways a step can stop, and the reset state. -/

namespace Sys2Proof.Machine

/-- The register file: fourteen 32-bit registers, none banked, aliased or hardwired (R20). -/
structure Regs where
  r0  : Word
  r1  : Word
  r2  : Word
  r3  : Word
  r4  : Word
  r5  : Word
  r6  : Word
  r7  : Word
  pc  : Word
  sp  : Word
  ir  : Word
  mar : Word
  mdr : Word
  psw : Word
  deriving DecidableEq, Repr

/-- The word store: each address names one independent 32-bit cell, with no bytes under it (R61, R64).
`cells` lists the cells that do not hold 0, addresses strictly rising; an unlisted address reads 0
(R62). `written` is the key set of R44: the addresses stored to since reset, strictly rising (DEDUCED, log
entry 4). -/
structure Memory where
  cells   : List (Nat × Word)
  written : List Nat
  deriving DecidableEq, Repr

/-- What an unlisted address reads as (R62: "unset addresses read as zero"). -/
def Memory.unset : Word := 0

/-- The empty map (R46). -/
def Memory.empty : Memory := ⟨[], []⟩

/-- The canonical form of memory: cell addresses strictly rising and inside the address space, no
listed cell equal to what an unlisted address reads as, the key set strictly rising, and every
listed cell in the key set. -/
abbrev Memory.wf (m : Memory) : Prop :=
  m.cells.Pairwise (fun c d => c.1 < d.1)
    ∧ (∀ c ∈ m.cells, c.2 ≠ Memory.unset ∧ c.1 ∈ m.written)
    ∧ m.written.Pairwise (fun a b => a < b)
    ∧ (∀ a ∈ m.written, a < 2 ^ 32)

/-- The five phases (R34). -/
inductive Phase where
  | fetch | decode | execute | memory | writeback
  deriving DecidableEq, Repr

/-- The active flags of the five named components (R42). The highlight flag of a component equals its
active flag; the operation label is not modelled (R42). -/
structure Components where
  alu : Bool
  cu  : Bool
  rf  : Bool
  mem : Bool
  bus : Bool
  deriving DecidableEq, Repr

/-- Every component inactive (R43). -/
def Components.none : Components := ⟨false, false, false, false, false⟩

/-- What the host can do to the Engine (R131, R244). -/
inductive HostEvent where
  /-- Submit an instruction and, if the start is accepted, pace its run to the end: `start`, then five
  ticks with nothing between them (R145). DESIGN CHOICE (log entry 1): the ticks belong to the start, so
  where the start is ignored (R143) or raises a PreconditionFault they are not given, and a run already
  in progress is not advanced; `tick` advances it. -/
  | run (p : Port)
  /-- `start` alone. -/
  | start (p : Port)
  /-- One pulse: the whole of the next phase. -/
  | tick
  /-- Abandon the run at this phase boundary. -/
  | abort
  | reset
  deriving DecidableEq, Repr

/-- The state of the machine. The last two fields are the host's, not the Engine's: its pending inputs,
oldest first, and the program of the reference supply (R96; DESIGN CHOICE, log entry 1). -/
structure State where
  regs      : Regs
  mem       : Memory
  /-- `phase` (R34). -/
  phase     : Phase
  /-- `cur`: the instruction in flight, or none (R34). -/
  cur       : Option Instr
  /-- `running` (R34). -/
  running   : Bool
  /-- `step`: 0 to 5 (R34, R35). -/
  stepIndex : Fin 6
  /-- `fault`: none, or the cause of the latched PreconditionFault (R34, R235). -/
  fault     : Option PreconditionCause
  /-- The control signals (R38). -/
  signals   : ControlSignals
  /-- The component activations (R42). -/
  active    : Components
  inbox     : List HostEvent
  program   : List Instr
  deriving DecidableEq, Repr

/-- Why the machine stops with a fault. Both are raised by `tick` alone, in states no run from reset
reaches and about which the spec says nothing (DESIGN CHOICE, log entry 21); both are safe. The spec's own fault, PreconditionFault,
is no stop: it is latched in `State.fault` (R234). -/
inductive Fault where
  /-- A tick while `running` with no instruction in flight. Safe: the machine stops. -/
  | noInstructionInFlight
  /-- A tick while `running` after the fifth phase. Safe: the machine stops. -/
  | noPhaseLeft
  deriving DecidableEq, Repr

/-- Why the model refuses a step. -/
inductive Refusal where
  /-- Raised by `exec` for an instruction the model gives no meaning. Safe. -/
  | notModelled (mnemonic : String)
  /-- Raised by LOAD and STORE, and by `start` and `tick` for them, when the address operand is
  IMMEDIATE or REGISTER: R94 (d) excludes the form, R152 defines no address for it and R237 has a
  model refuse it. Safe. -/
  | addressOperandNotAdmitted
  /-- Raised when a bundle's operand lane names register 14 or 15: outside R94 (c), and no behaviour is
  given. Safe. -/
  | registerIndexOutOfRange
  deriving DecidableEq, Repr

/-- The registers after reset: all 0 except SP = 1000 (R46). -/
def Regs.reset : Regs := ⟨0, 0, 0, 0, 0, 0, 0, 0, 0, Config.spReset, 0, 0, 0, 0⟩

/-- The machine right after reset, and at construction (R46, R47): nothing in flight, no input pending
and no program. -/
def State.reset : State where
  regs := Regs.reset
  mem := Memory.empty
  phase := .fetch
  cur := none
  running := false
  stepIndex := 0
  fault := none
  signals := ControlSignals.idle
  active := Components.none
  inbox := []
  program := []

end Sys2Proof.Machine
end

