-- ==== Sys2Proof/Machine/Ops.lean ====
section
/-! DEFINITION. The named operations over registers and memory (spec/00_scope.md R11), and taking the
one fault the spec describes, with the one way out of it (spec/60_exceptions.md R234, R235). -/

namespace Sys2Proof.Machine

/-! ### Registers -/

/-- `x[r]` (R11). -/
def Regs.get (x : Regs) : Reg → Word
  | .r0 => x.r0
  | .r1 => x.r1
  | .r2 => x.r2
  | .r3 => x.r3
  | .r4 => x.r4
  | .r5 => x.r5
  | .r6 => x.r6
  | .r7 => x.r7
  | .pc => x.pc
  | .sp => x.sp
  | .ir => x.ir
  | .mar => x.mar
  | .mdr => x.mdr
  | .psw => x.psw

/-- `x[r] <- v` (R11, R23). -/
def Regs.set (x : Regs) (r : Reg) (v : Word) : Regs :=
  match r with
  | .r0 => { x with r0 := v }
  | .r1 => { x with r1 := v }
  | .r2 => { x with r2 := v }
  | .r3 => { x with r3 := v }
  | .r4 => { x with r4 := v }
  | .r5 => { x with r5 := v }
  | .r6 => { x with r6 := v }
  | .r7 => { x with r7 := v }
  | .pc => { x with pc := v }
  | .sp => { x with sp := v }
  | .ir => { x with ir := v }
  | .mar => { x with mar := v }
  | .mdr => { x with mdr := v }
  | .psw => { x with psw := v }

/-! ### Memory -/

/-- The word listed for an address, or what an unlisted address reads as. -/
def readCells (a : Nat) : List (Nat × Word) → Word
  | [] => Memory.unset
  | (b, w) :: rest => if a = b then w else readCells a rest

/-- The list with an address holding a word, in canonical form: a word equal to what an unlisted
address reads as is not listed. -/
def writeCells (a : Nat) (v : Word) : List (Nat × Word) → List (Nat × Word)
  | [] => if v = Memory.unset then [] else [(a, v)]
  | (b, w) :: rest =>
    if a < b then if v = Memory.unset then (b, w) :: rest else (a, v) :: (b, w) :: rest
    else if a = b then if v = Memory.unset then rest else (a, v) :: rest
    else (b, w) :: writeCells a v rest

/-- A rising list of addresses with one more member. -/
def addKey (a : Nat) : List Nat → List Nat
  | [] => [a]
  | b :: rest => if a < b then a :: b :: rest else if a = b then b :: rest else b :: addKey a rest

/-- `MemRead(addr, 4)`: the word last stored at the address, or 0 (R62). -/
def Memory.read (m : Memory) (a : Word) : Word := readCells a.toNat m.cells

/-- `MemWrite(addr, 4, v)`: the cell takes the word and the address joins the key set (R62). -/
def Memory.write (m : Memory) (a v : Word) : Memory where
  cells := writeCells a.toNat v m.cells
  written := addKey a.toNat m.written

/-! ### The same on the state -/

def State.getReg (s : State) (r : Reg) : Word := s.regs.get r

def State.setReg (s : State) (r : Reg) (v : Word) : State := { s with regs := s.regs.set r v }

def State.memRead (s : State) (a : Word) : Word := s.mem.read a

def State.memWrite (s : State) (a v : Word) : State := { s with mem := s.mem.write a v }

/-! ### The execution state -/

/-- The step number of a phase (R134). -/
def Phase.number : Phase → Fin 6
  | .fetch => 1
  | .decode => 2
  | .execute => 3
  | .memory => 4
  | .writeback => 5

/-- The phase the next tick performs after a number of completed phases; after the fifth there is none
(R130). -/
def nextPhase (n : Fin 6) : Option Phase :=
  match n.val with
  | 0 => some .fetch
  | 1 => some .decode
  | 2 => some .execute
  | 3 => some .memory
  | 4 => some .writeback
  | _ => none

/-- `total`: the constant step count (R34). -/
def State.total (_ : State) : Nat := Config.totalSteps

/-- The number the `fault` field shows the host: 0, or the code of the latched cause (R34, R233). -/
def State.faultCode (s : State) : Nat := (s.fault.map PreconditionCause.code).getD 0

/-- A start is ignored while a run is in progress and while a fault is latched (R143). -/
def State.ignoresStart (s : State) : Bool := s.running || s.fault.isSome

/-! ### The fault and the way out of it -/

/-- `raise PreconditionFault(cause)`: it sets `fault` and changes nothing else (R234). -/
def State.raisePreconditionFault (s : State) (cause : PreconditionCause) : State :=
  { s with fault := some cause }

/-- The reset operation: every field of the Engine takes its reset value, whatever it held, and a run in
progress ends without exit actions (R260, R261). It is the only way out of a PreconditionFault (R235).
The host's own inputs are not the Engine's and stay (DESIGN CHOICE, log entry 14). -/
def State.resetEngine (s : State) : State :=
  { State.reset with inbox := s.inbox, program := s.program }

/-! ### What the host may read -/

/-- The read-only snapshot of CPU state the host may take (R144, R244). -/
structure Snapshot where
  regs      : Regs
  mem       : Memory
  phase     : Phase
  cur       : Option Instr
  running   : Bool
  stepIndex : Fin 6
  total     : Nat
  fault     : Nat
  active    : Components
  highlight : Components
  deriving DecidableEq, Repr

/-- The highlight flags: equal to the active flags (R42). -/
def State.highlight (s : State) : Components := s.active

/-- The snapshot of a state (R244 (e)). -/
def State.snapshot (s : State) : Snapshot :=
  ⟨s.regs, s.mem, s.phase, s.cur, s.running, s.stepIndex, s.total, s.faultCode, s.active, s.highlight⟩

/-- The snapshot of the current control signals (R244 (e)). -/
def State.signalSnapshot (s : State) : ControlSignals := s.signals

end Sys2Proof.Machine
end

