-- ==== Sys2Proof/Machine/Operands.lean ====
section
/-! DEFINITION. Operand resolution: ReadOperand, WriteOperand, EffAddr (spec/40_phase_engine.md R150 to
R152) and the jump target (spec/43_compare_jump_nop.md R211). None of them writes MAR or MDR. -/

namespace Sys2Proof.Machine

/-- `ReadOperand(op)` (R150). -/
def readOperand (op : Operand) (s : State) : Word :=
  match op with
  | .imm v => v
  | .reg r => s.getReg r
  | .dir a => s.memRead a
  | .ind r => s.memRead (s.getReg r)

/-- `WriteOperand(op, v)`: a write to an IMMEDIATE is dropped (R151; UNVERIFIED, log entry 8). -/
def writeOperand (op : Operand) (v : Word) (s : State) : State :=
  match op with
  | .imm _ => s
  | .reg r => s.setReg r v
  | .dir a => s.memWrite a v
  | .ind r => s.memWrite (s.getReg r) v

/-- `EffAddr(op)`: the address a LOAD or STORE accesses; not defined for IMMEDIATE and REGISTER (R152). -/
def effAddr (op : Operand) (s : State) : Option Word :=
  match op with
  | .dir a => some a
  | .ind r => some (s.getReg r)
  | .imm _ | .reg _ => none

/-- `Target(op)` under either setting of JUMP_TARGET_MODE (R211). -/
def jumpTarget (mode : JumpTargetMode) (op : Operand) (s : State) : Word :=
  match mode, op with
  | .value, op => readOperand op s
  | .address, .imm v => v
  | .address, .reg r => s.getReg r
  | .address, .dir a => a
  | .address, .ind r => s.getReg r

end Sys2Proof.Machine
end

