-- ==== Sys2Proof/Machine/Settings.lean ====
section
/-! DEFINITION. The settings this spec takes for the parameters of spec/00_scope.md R6. -/

namespace Sys2Proof.Machine

/-- The spec's default table of DECODE_SIGNALS (R137). -/
def decodeSignalTable : InstrType → ControlSignals
  | .load  => { ControlSignals.idle with memRead := true, regWrite := true, regDst := true, memToReg := true }
  | .store => { ControlSignals.idle with memWrite := true }
  | .add   => { ControlSignals.idle with regWrite := true, aluOp := .add, regDst := true }
  | .sub   => { ControlSignals.idle with regWrite := true, aluOp := .sub, regDst := true }
  | .mul   => { ControlSignals.idle with regWrite := true, aluOp := .mul, regDst := true }
  | .div   => { ControlSignals.idle with regWrite := true, aluOp := .div, regDst := true }
  | .mov   => { ControlSignals.idle with regWrite := true, aluOp := .mov, regDst := true }
  | .cmp   => { ControlSignals.idle with aluOp := .cmp }
  | .jmp   => { ControlSignals.idle with pcWrite := true, jump := true }
  | .jz    => { ControlSignals.idle with branch := true }
  | .jnz   => { ControlSignals.idle with branch := true }
  | .nop   => ControlSignals.idle

/-- The settings of R6: JUMP_TARGET_MODE = value, signed two's complement for DIV and CMP, the default
table of DECODE_SIGNALS. All three are the spec's own decisions (UNVERIFIED, log entries 5, 6, 7). -/
def settings : Config where
  jumpTargetMode := .value
  reading := .signed
  decodeSignals := decodeSignalTable

end Sys2Proof.Machine
end

