-- ==== Sys2Proof/Machine/Phases.lean ====
section
/-! DEFINITION. The run of one instruction: entry, the five phases, exit (spec/40_phase_engine.md R132 to
R141), each written once; the operation of a type in EXECUTE and in MEMORY is an argument. A phase is
given in two parts, what it does while its components are active (`…Body`, what the trace of R144
shows) and the clearing of the activations at its end (R43, R134). -/

namespace Sys2Proof.Machine

/-- Entry: `cur`, `running`, `step` and the control signals; registers and memory are not touched (R132). -/
def enterRun (i : Instr) (s : State) : State :=
  { s with cur := some i, running := true, stepIndex := 0, signals := ControlSignals.idle }

/-- The opening of a phase: its name, its number and the components it uses (R134). -/
def beginPhase (p : Phase) (used : Components) (s : State) : State :=
  { s with phase := p, stepIndex := p.number, active := used }

/-- `deact_all()`, the end of every phase (R43, R134). -/
def deactAll (s : State) : State := { s with active := Components.none }

/-- FETCH's effect on the registers: MAR, IR, then PC (R135). -/
def fetchRegs (s : State) : State :=
  let s := s.setReg .mar (s.getReg .pc)
  let s := s.setReg .ir (s.memRead (s.getReg .pc))
  s.setReg .pc (s.getReg .pc + Config.ilen)

/-- FETCH (R135). -/
def fetchBody (s : State) : State :=
  let s := beginPhase .fetch { Components.none with cu := true, mem := true, bus := true } s
  fetchRegs { s with signals := { s.signals with memRead := true, pcWrite := true, irWrite := true } }

/-- DECODE: clears FETCH's three signals, then derives the set of the type; no register and no cell
changes (R136). -/
def decodeBody (cfg : Config) (i : Instr) (s : State) : State :=
  let s := beginPhase .decode { Components.none with cu := true, rf := true } s
  let s := { s with signals := { s.signals with memRead := false, pcWrite := false, irWrite := false } }
  { s with signals := cfg.decodeSignals i.type }

/-- EXECUTE, with the operation of the type (R138). -/
def executeBody (operation : State → State) (s : State) : State :=
  operation (beginPhase .execute { Components.none with alu := true, cu := true } s)

/-- The components of the MEMORY phase: memory unit and bus for LOAD and STORE, none for the rest
(R139). -/
def memoryComponents : InstrType → Components
  | .load | .store => { Components.none with mem := true, bus := true }
  | .nop | .add | .sub | .mul | .div | .mov | .cmp | .jmp | .jz | .jnz => Components.none

/-- MEMORY, with the operation of the type (R139); `none` where the operation has no address (R152). -/
def memoryBody (i : Instr) (operation : State → Option State) (s : State) : Option State :=
  operation (beginPhase .memory (memoryComponents i.type) s)

/-- The types whose WRITEBACK asserts register-write: every type except STORE, CMP, JMP, JZ, JNZ, NOP
(R140). -/
def writesRegister : InstrType → Bool
  | .load | .add | .sub | .mul | .div | .mov => true
  | .store | .cmp | .jmp | .jz | .jnz | .nop => false

/-- WRITEBACK: a marker; no register and no cell changes (R140). -/
def writebackBody (i : Instr) (s : State) : State :=
  if writesRegister i.type then
    let s := beginPhase .writeback { Components.none with rf := true } s
    { s with signals := { s.signals with regWrite := true } }
  else beginPhase .writeback Components.none s

/-- Exit: `running` and the control signals; `phase`, `step` and `cur` stay (R141). -/
def exitRun (s : State) : State := { s with running := false, signals := ControlSignals.idle }

def fetchPhase (s : State) : State := deactAll (fetchBody s)

def decodePhase (cfg : Config) (i : Instr) (s : State) : State := deactAll (decodeBody cfg i s)

def executePhase (operation : State → State) (s : State) : State := deactAll (executeBody operation s)

def memoryPhase (i : Instr) (operation : State → Option State) (s : State) : Option State :=
  (memoryBody i operation s).map deactAll

/-- WRITEBACK and, in the same step, exit (R140, R141). -/
def writebackPhase (i : Instr) (s : State) : State := exitRun (deactAll (writebackBody i s))

/-- The run as one function: entry, FETCH, DECODE, EXECUTE, MEMORY, WRITEBACK, exit (R145). -/
def completeRun (cfg : Config) (i : Instr) (executeOp : State → State) (memoryOp : State → Option State)
    (s : State) : Option State :=
  let s := decodePhase cfg i (fetchPhase (enterRun i s))
  (memoryPhase i memoryOp (executePhase executeOp s)).map (writebackPhase i)

/-- The EXECUTE operation of a type that does nothing there (R138). -/
def noExecute (s : State) : State := s

/-- The MEMORY operation of a type that does nothing there (R139). -/
def noMemory (s : State) : Option State := some s

/-- Submitting an instruction to the Engine and letting its run complete. While a run is in progress or a
fault is latched the start is ignored (R143), and no tick is given (DESIGN CHOICE, log entry 1); an instruction that is not well formed has no meaning and
is refused before it runs (R94 (d), R237). -/
def submit (i : Instr) (executeOp : State → State) (memoryOp : State → Option State) (s : State) :
    Host.Outcome State Fault Refusal :=
  if s.ignoresStart then .next s
  else if i.wf then
    match completeRun settings i executeOp memoryOp s with
    | some t => .next t
    | none => .refused .addressOperandNotAdmitted
  else .refused .addressOperandNotAdmitted

end Sys2Proof.Machine
end

