-- ==== Sys2Proof/Machine/Arithmetic.lean ====
section
/-! DEFINITION. ADD, SUB, MUL, DIV (spec/41_arithmetic.md). Each acts in EXECUTE, reads both sources
before it writes its destination (R171, R177), and sets no flag. -/

namespace Sys2Proof.Machine

/-- The EXECUTE operation of ADD (R172). -/
def addOp (dst src1 src2 : Operand) (s : State) : State :=
  writeOperand dst (addWords (readOperand src1 s) (readOperand src2 s)) s

/-- The EXECUTE operation of SUB: `op[1]` minus `op[2]` (R173). -/
def subOp (dst src1 src2 : Operand) (s : State) : State :=
  writeOperand dst (subWords (readOperand src1 s) (readOperand src2 s)) s

/-- The EXECUTE operation of MUL (R174). -/
def mulOp (dst src1 src2 : Operand) (s : State) : State :=
  writeOperand dst (mulWords (readOperand src1 s) (readOperand src2 s)) s

/-- The EXECUTE operation of DIV: with a zero divisor nothing is written and the destination is not
evaluated (R175). -/
def divOp (cfg : Config) (dst src1 src2 : Operand) (s : State) : State :=
  if readOperand src2 s = 0 then s
  else writeOperand dst (divWords cfg.reading (readOperand src1 s) (readOperand src2 s)) s

/-- ADD `dst, src1, src2` (R172). -/
def execAdd (dst src1 src2 : Operand) (s : State) : Host.Outcome State Fault Refusal :=
  submit (.add dst src1 src2) (addOp dst src1 src2) noMemory s

/-- SUB `dst, src1, src2` (R173). -/
def execSub (dst src1 src2 : Operand) (s : State) : Host.Outcome State Fault Refusal :=
  submit (.sub dst src1 src2) (subOp dst src1 src2) noMemory s

/-- MUL `dst, src1, src2` (R174). -/
def execMul (dst src1 src2 : Operand) (s : State) : Host.Outcome State Fault Refusal :=
  submit (.mul dst src1 src2) (mulOp dst src1 src2) noMemory s

/-- DIV `dst, src1, src2` (R175). -/
def execDiv (dst src1 src2 : Operand) (s : State) : Host.Outcome State Fault Refusal :=
  submit (.div dst src1 src2) (divOp settings dst src1 src2) noMemory s

end Sys2Proof.Machine
end

