-- ==== Sys2Proof/Machine/Control.lean ====
section
/-! DEFINITION. CMP, JMP, JZ, JNZ, NOP (spec/43_compare_jump_nop.md). All act in EXECUTE and do nothing
in MEMORY. -/

namespace Sys2Proof.Machine

/-- The EXECUTE operation of CMP: both operands are read before PSW changes (R210). -/
def cmpOp (cfg : Config) (left right : Operand) (s : State) : State :=
  s.setReg .psw (compareFlags cfg.reading (readOperand left s) (readOperand right s))

/-- The EXECUTE operation of JMP (R212). -/
def jmpOp (cfg : Config) (target : Operand) (s : State) : State :=
  s.setReg .pc (jumpTarget cfg.jumpTargetMode target s)

/-- The EXECUTE operation of JZ (R213). -/
def jzOp (cfg : Config) (target : Operand) (s : State) : State :=
  if zeroFlag (s.getReg .psw) then s.setReg .pc (jumpTarget cfg.jumpTargetMode target s) else s

/-- The EXECUTE operation of JNZ (R214). -/
def jnzOp (cfg : Config) (target : Operand) (s : State) : State :=
  if zeroFlag (s.getReg .psw) then s else s.setReg .pc (jumpTarget cfg.jumpTargetMode target s)

/-- CMP `left, right` (R210). -/
def execCmp (left right : Operand) (s : State) : Host.Outcome State Fault Refusal :=
  submit (.cmp left right) (cmpOp settings left right) noMemory s

/-- JMP `target` (R212). -/
def execJmp (target : Operand) (s : State) : Host.Outcome State Fault Refusal :=
  submit (.jmp target) (jmpOp settings target) noMemory s

/-- JZ `target` (R213). -/
def execJz (target : Operand) (s : State) : Host.Outcome State Fault Refusal :=
  submit (.jz target) (jzOp settings target) noMemory s

/-- JNZ `target` (R214). -/
def execJnz (target : Operand) (s : State) : Host.Outcome State Fault Refusal :=
  submit (.jnz target) (jnzOp settings target) noMemory s

/-- NOP: nothing beyond the phases every type runs (R216). -/
def execNop (s : State) : Host.Outcome State Fault Refusal :=
  submit .nop noExecute noMemory s

end Sys2Proof.Machine
end

