-- ==== Sys2Proof/Machine/DataMovement.lean ====
section
/-! DEFINITION. MOV, LOAD, STORE (spec/42_data_movement.md). MOV acts in EXECUTE; LOAD and STORE act in
MEMORY and are the only types that write MDR (R191). -/

namespace Sys2Proof.Machine

/-- The EXECUTE operation of MOV (R190). -/
def movOp (dst src : Operand) (s : State) : State := writeOperand dst (readOperand src s) s

/-- The MEMORY operation of LOAD, in the order of R192 (UNVERIFIED, log entry 15): the address, MAR, MDR, then the destination. -/
def loadOp (dst addr : Operand) (s : State) : Option State :=
  (effAddr addr s).map fun ea =>
    let s := s.setReg .mar ea
    let s := s.setReg .mdr (s.memRead ea)
    writeOperand dst (s.getReg .mdr) s

/-- The MEMORY operation of STORE, in the order of R194: the address, MAR, MDR, then the cell. -/
def storeOp (src addr : Operand) (s : State) : Option State :=
  (effAddr addr s).map fun ea =>
    let s := s.setReg .mar ea
    let s := s.setReg .mdr (readOperand src s)
    s.memWrite ea (s.getReg .mdr)

/-- MOV `dst, src` (R190). -/
def execMov (dst src : Operand) (s : State) : Host.Outcome State Fault Refusal :=
  submit (.mov dst src) (movOp dst src) noMemory s

/-- LOAD `dst, addr` (R192); refused for an IMMEDIATE or REGISTER address (R94 (d), R237). -/
def execLoad (dst addr : Operand) (s : State) : Host.Outcome State Fault Refusal :=
  submit (.load dst addr) noExecute (loadOp dst addr) s

/-- STORE `src, addr` (R194); refused for an IMMEDIATE or REGISTER address (R94 (d), R237). -/
def execStore (src addr : Operand) (s : State) : Host.Outcome State Fault Refusal :=
  submit (.store src addr) noExecute (storeOp src addr) s

end Sys2Proof.Machine
end

