-- ==== Sys2Proof/Machine/PhaseTable.lean ====
section
/-! DEFINITION. The two case distinctions the phases make on the type of the instruction in flight
(spec/40_phase_engine.md R138, R139), the run under any parameter setting (R145), and the observable
trace of a run (R144). -/

namespace Sys2Proof.Machine

/-- The EXECUTE operation of the instruction in flight (R138). -/
def executeOp (cfg : Config) (i : Instr) : State → State :=
  match i with
  | .nop => noExecute
  | .load _ _ => noExecute
  | .store _ _ => noExecute
  | .add d a b => addOp d a b
  | .sub d a b => subOp d a b
  | .mul d a b => mulOp d a b
  | .div d a b => divOp cfg d a b
  | .mov d a => movOp d a
  | .cmp a b => cmpOp cfg a b
  | .jmp t => jmpOp cfg t
  | .jz t => jzOp cfg t
  | .jnz t => jnzOp cfg t

/-- The MEMORY operation of the instruction in flight (R139). -/
def memoryOp (i : Instr) : State → Option State :=
  match i with
  | .load d a => loadOp d a
  | .store v a => storeOp v a
  | .nop | .add .. | .sub .. | .mul .. | .div .. | .mov .. | .cmp .. | .jmp _ | .jz _ | .jnz _ => noMemory

/-- The run of an instruction under any setting of the parameters of R6 (R145). -/
def runWith (cfg : Config) (i : Instr) (s : State) : Option State :=
  completeRun cfg i (executeOp cfg i) (memoryOp i) s

/-- One record of the trace of a run (R144): the phase, the step, the components active during the phase,
the control signals as set during it, and the registers and memory at its end. -/
structure TraceRecord where
  phase  : Phase
  step   : Fin 6
  active : Components
  signals : ControlSignals
  regs   : Regs
  mem    : Memory
  deriving DecidableEq, Repr

/-- The record of a phase, from the state its body leaves before its components are cleared. -/
def recordOf (s : State) : TraceRecord := ⟨s.phase, s.stepIndex, s.active, s.signals, s.regs, s.mem⟩

/-- The observable trace of a completed run: five records, one per phase, a function of the start state
and the instruction (R144). -/
def runTrace (cfg : Config) (i : Instr) (s : State) : Option (List TraceRecord) :=
  let f := fetchBody (enterRun i s)
  let d := decodeBody cfg i (deactAll f)
  let e := executeBody (executeOp cfg i) (deactAll d)
  (memoryBody i (memoryOp i) (deactAll e)).map fun m =>
    [recordOf f, recordOf d, recordOf e, recordOf m, recordOf (writebackBody i (deactAll m))]

end Sys2Proof.Machine
end

