-- ==== Sys2Proof/Machine/HostControl.lean ====
section
/-! DEFINITION. What each input of the host does (spec/40_phase_engine.md R131 to R133, R142, R143), and
which instruction the host submits when none of its inputs is pending (spec/30_encoding.md R96). -/

namespace Sys2Proof.Machine

/-- The entry checks on a presented bundle: an ignored start leaves everything as it is (R143), and the
ticks of an ignored `run` input go with it (DESIGN CHOICE, log entry 1); a failed
precondition is raised before anything else changes (R133); a register number outside R94 (c) is
refused (log entry 10); otherwise the instruction value goes on. -/
def acceptPort (p : Port) (accepted : Instr → State → Host.Outcome State Fault Refusal) (s : State) :
    Host.Outcome State Fault Refusal :=
  if s.ignoresStart then .next s
  else
    match decodePort p with
    | .ok i => accepted i s
    | .error (.precondition cause) => .next (s.raisePreconditionFault cause)
    | .error .registerIndex => .refused .registerIndexOutOfRange

/-- `start` for an accepted instruction: entry (R132); refused when it is not well formed (R94 (d)). -/
def startRun (i : Instr) (s : State) : Host.Outcome State Fault Refusal :=
  if i.wf then .next (enterRun i s) else .refused .addressOperandNotAdmitted

/-- `tick`: the whole of the next phase of the run in progress (R131); with no run in progress there is
no next phase and nothing happens (DEDUCED, log entry 12). -/
def tick (s : State) : Host.Outcome State Fault Refusal :=
  if s.running = false then .next s
  else
    match s.cur, nextPhase s.stepIndex with
    | none, _ => .fault .noInstructionInFlight
    | some _, none => .fault .noPhaseLeft
    | some _, some .fetch => .next (fetchPhase s)
    | some i, some .decode => .next (decodePhase settings i s)
    | some i, some .execute => .next (executePhase (executeOp settings i) s)
    | some i, some .memory =>
      match memoryPhase i (memoryOp i) s with
      | some t => .next t
      | none => .refused .addressOperandNotAdmitted
    | some i, some .writeback => .next (writebackPhase i s)

/-- `abort` at a phase boundary: during a run, `running <- 0` and nothing else (R142; UNVERIFIED, log entry 13);
otherwise nothing (R236). -/
def abortRun (s : State) : State := if s.running then { s with running := false } else s

/-- The effect of one input of the host. -/
def hostEvent (e : HostEvent) (s : State) : Host.Outcome State Fault Refusal :=
  match e with
  | .run p => acceptPort p exec s
  | .start p => acceptPort p startRun s
  | .tick => tick s
  | .abort => .next (abortRun s)
  | .reset => .next s.resetEngine

/-- The reference supply `Supply_PC(P)`: when PC is a multiple of 4 and `pc / 4 < n` the host submits
`P[pc / 4]`, otherwise nothing (R96). -/
def supplyPC (program : List Instr) (pc : Word) : Option Instr :=
  if pc.toNat % 4 = 0 then program[pc.toNat / 4]? else none

/-- With no input pending: between runs the host follows the reference supply, and when that submits
nothing, or while a run waits for its next tick, the Engine stays as it is (R96, R131, R243). -/
def hostQuiet (s : State) : Host.Outcome State Fault Refusal :=
  if s.ignoresStart then .next s
  else
    match supplyPC s.program s.regs.pc with
    | some i => exec i s
    | none => .next s

/-- The next thing that happens: the oldest pending input of the host, or what it does when none is
pending. -/
def hostStep (s : State) : Host.Outcome State Fault Refusal :=
  match s.inbox with
  | e :: rest => hostEvent e { s with inbox := rest }
  | [] => hostQuiet s

/-- The state in which the host's next input submits this bundle to an Engine ready to accept it. -/
def State.presenting (s : State) (p : Port) : State :=
  { s with running := false, fault := none, inbox := [.run p] }

end Sys2Proof.Machine
end

