-- ==== Sys2Proof/Machine/Step.lean ====
section
/-! DEFINITION. One step of the machine: one input of the host, or one run submitted by the reference
supply (log entry 1). -/

namespace Sys2Proof.Machine

/-- One step of the machine. -/
def step (s : State) : Host.Outcome State Fault Refusal := hostStep s

/-- The state with a word stored where FETCH reads the next one: the cell at PC (R135). FETCH copies it into
IR and no rule reads it further (R32, R105), so storing a word makes nothing run. For the pipeline, which
asks whether each row of the opcode table runs, the host also submits an instruction value of the row's type:
the type is the one thing a word tells (R105), and the operands are the host's own, the same for every
word, not decoded. A word of no row is no event: nothing is submitted (R107, U11). No definition of the
machine calls this function (DESIGN CHOICE, log entry 2). -/
def State.withFetchWord (s : State) (nbits w : Nat) : State :=
  if nbits ≤ 32 ∧ w < 2 ^ 32 then
    let word := BitVec.ofNat 32 w
    let s := s.memWrite s.regs.pc word
    match tableRow word with
    | some t => s.presenting (encodePort t.specimen)
    | none => s
  else s

end Sys2Proof.Machine
end

