-- ==== Sys2Proof/Machine/Parser.lean ====
section
/-! DEFINITION. The Parser (spec/30_encoding.md R110 to R116): text to instruction value and back to
text. It has no dependency on the state of the Engine. Text is a list of characters. -/

namespace Sys2Proof.Machine

/-- Why a text is no instruction (R110, R112, R93). -/
inductive SyntaxError where
  /-- The text has no token: it is empty after trimming, or holds commas only (DESIGN CHOICE for the
  latter, log entry 3). -/
  | emptyText
  /-- The first token is none of the twelve mnemonics. -/
  | unknownMnemonic
  /-- `#` is not followed by an integer (R112 rule 1). -/
  | malformedImmediate
  /-- Brackets around something that is no register name (R112 rule 3). -/
  | unknownRegister
  /-- None of the operand forms (R112 rule 5). -/
  | unparseableOperand
  /-- A literal outside the range of R93. -/
  | literalOutOfRange
  /-- The operand count differs from the arity of the type (R114). -/
  | operandCount
  deriving DecidableEq, Repr

/-- What the Parser makes of a text: the type and operands of the instruction value, and what it carries
along that no phase rule reads: the mnemonic, the display string of each operand and the optional 32-bit
encoding (R90, R91). -/
structure Parsed where
  instr    : Instr
  mnemonic : List Char
  displays : List (List Char)
  encoding : Option Word
  deriving DecidableEq, Repr

/-- The optional encoding of a new instruction value: the Encoder's word or none, which of the two is a
free value (R90, R100; DESIGN CHOICE, log entry 23). -/
def attachedEncoding (i : Instr) : Option Word :=
  if Config.parserAttachesEncoding then some (encode i) else none

/-- The mnemonic of a type is its name (R111). -/
def mnemonicOf : InstrType → List Char
  | .nop => ['N', 'O', 'P']
  | .load => ['L', 'O', 'A', 'D']
  | .store => ['S', 'T', 'O', 'R', 'E']
  | .add => ['A', 'D', 'D']
  | .sub => ['S', 'U', 'B']
  | .mul => ['M', 'U', 'L']
  | .div => ['D', 'I', 'V']
  | .mov => ['M', 'O', 'V']
  | .cmp => ['C', 'M', 'P']
  | .jmp => ['J', 'M', 'P']
  | .jz => ['J', 'Z']
  | .jnz => ['J', 'N', 'Z']

/-- The register names of R112. -/
def registerName : Reg → List Char
  | .r0 => ['R', '0']
  | .r1 => ['R', '1']
  | .r2 => ['R', '2']
  | .r3 => ['R', '3']
  | .r4 => ['R', '4']
  | .r5 => ['R', '5']
  | .r6 => ['R', '6']
  | .r7 => ['R', '7']
  | .pc => ['P', 'C']
  | .sp => ['S', 'P']
  | .ir => ['I', 'R']
  | .mar => ['M', 'A', 'R']
  | .mdr => ['M', 'D', 'R']
  | .psw => ['P', 'S', 'W']

def typeOfName (t : List Char) : Option InstrType := InstrType.all.find? (fun y => mnemonicOf y == t)

def registerOfName (t : List Char) : Option Reg := Reg.all.find? (fun r => registerName r == t)

/-- White space and commas separate tokens (R111). DESIGN CHOICE (log entry 3): white space is Lean's
`Char.isWhitespace`. -/
def isSeparator (c : Char) : Bool := c.isWhitespace || c == ','

/-- Splitting on separators, empty tokens discarded (R111); the first argument is the token so far. -/
def tokenise (sofar : List Char) : List Char → List (List Char)
  | [] => if sofar.isEmpty then [] else [sofar]
  | c :: rest =>
    if isSeparator c then
      if sofar.isEmpty then tokenise [] rest else sofar :: tokenise [] rest
    else tokenise (sofar ++ [c]) rest

/-- Upper case, before matching (R111). -/
def upper (t : List Char) : List Char := t.map Char.toUpper

/-- The number a list of decimal digits spells, on top of a value so far. -/
def digitsValue (sofar : Nat) : List Char → Option Nat
  | [] => some sofar
  | c :: rest => if c.isDigit then digitsValue (10 * sofar + (c.toNat - '0'.toNat)) rest else none

/-- One or more decimal digits. -/
def naturalOf (t : List Char) : Option Nat := if t.isEmpty then none else digitsValue 0 t

/-- An integer literal: an optional `-`, then one or more decimal digits, the whole token (R113). -/
def integerOf (t : List Char) : Option Int :=
  match t with
  | '-' :: rest => (naturalOf rest).map fun n => -(n : Int)
  | t => (naturalOf t).map fun n => (n : Int)

/-- An IMMEDIATE literal, -2^31 to 2^32-1, stored modulo 2^32 (R93). -/
def immediateOf (n : Int) : Except SyntaxError Operand :=
  if -2 ^ 31 ≤ n ∧ n ≤ 2 ^ 32 - 1 then .ok (.imm (mask32 n)) else .error .literalOutOfRange

/-- A DIRECT literal, 0 to 2^32-1 (R93). -/
def directOf (n : Int) : Except SyntaxError Operand :=
  if 0 ≤ n ∧ n ≤ 2 ^ 32 - 1 then .ok (.dir (mask32 n)) else .error .literalOutOfRange

/-- What stands between the brackets of a bracket-delimited token (R112 rule 3). -/
def bracketed (t : List Char) : Option (List Char) :=
  match t with
  | '[' :: rest => if rest.getLast? = some ']' then some rest.dropLast else none
  | _ => none

/-- The operand a token denotes, by the precedence of R112; the token is in upper case. -/
def classify (t : List Char) : Except SyntaxError Operand :=
  match t with
  | '#' :: rest =>
    match integerOf rest with
    | some n => immediateOf n
    | none => .error .malformedImmediate
  | t =>
    match registerOfName t with
    | some r => .ok (.reg r)
    | none =>
      match bracketed t with
      | some x =>
        match registerOfName x with
        | some r => .ok (.ind r)
        | none => .error .unknownRegister
      | none =>
        match integerOf t with
        | some n => directOf n
        | none => .error .unparseableOperand

/-- Every token in turn, left to right; the first failure is reported (R112, R114). -/
def classifyAll : List (List Char) → Except SyntaxError (List Operand)
  | [] => .ok []
  | t :: ts =>
    match classify (upper t) with
    | .error e => .error e
    | .ok o =>
      match classifyAll ts with
      | .error e => .error e
      | .ok os => .ok (o :: os)

/-- The instruction value of a list of tokens. DESIGN CHOICE (log entry 3): the causes of failure are
tested in the order of R110, the operand count after the operands (R114). DESIGN CHOICE (log entry 3): a
text of commas, with or without white space, is not empty after trimming yet has no token, and R110 does
not say which SyntaxError it gives; it gives `emptyText`, as a blank text does. -/
def parseTokens : List (List Char) → Except SyntaxError Parsed
  | [] => .error .emptyText
  | m :: ts =>
    match typeOfName (upper m) with
    | none => .error .unknownMnemonic
    | some y =>
      match classifyAll ts with
      | .error e => .error e
      | .ok os =>
        match y.build os with
        | none => .error .operandCount
        | some i => .ok ⟨i, mnemonicOf y, ts, attachedEncoding i⟩

/-- `parse(text)` (R110): one text is one instruction (R115). -/
def parse (text : List Char) : Except SyntaxError Parsed := parseTokens (tokenise [] text)

/-- `validateSyntax(text)`: nothing, or the first failure (R116). -/
def validateSyntax (text : List Char) : Option SyntaxError :=
  match parse text with
  | .ok _ => none
  | .error e => some e

/-- The display strings of the operands, comma-joined (R116). -/
def commaJoined : List (List Char) → List Char
  | [] => []
  | [t] => t
  | t :: ts => t ++ ',' :: commaJoined ts

/-- `formatInstruction`: the mnemonic, then each operand's preserved display form, comma-joined (R116).
DESIGN CHOICE (log entry 3): one space after the mnemonic and none after a comma. -/
def formatInstruction (p : Parsed) : List Char :=
  match p.displays with
  | [] => p.mnemonic
  | ts => p.mnemonic ++ ' ' :: commaJoined ts

end Sys2Proof.Machine
end

