-- ==== Sys2Proof/Safety.lean ====
section
/-! DEFINITION. The terms claims are stated in: a state ready for a run, a state gone wrong, the invariant
of the machine, and the vocabulary of results and frames. -/

namespace Sys2Proof

/-- The operand names a register, as itself or as the address it holds (R22). -/
def Operand.names (op : Operand) (r : Reg) : Prop := op = .reg r ∨ op = .ind r

/-- The operand an instruction writes, if it has one (R92). -/
def Instr.destination : Instr → Option Operand
  | .load d _ | .add d _ _ | .sub d _ _ | .mul d _ _ | .div d _ _ | .mov d _ => some d
  | .nop | .store .. | .cmp .. | .jmp _ | .jz _ | .jnz _ => none

/-- The lane carries the operand, in the mode numbers and fields of R95: mode 0 IMMEDIATE with its literal,
1 REGISTER with its index, 2 DIRECT with its address, 3 INDIRECT with its register's index. -/
def OperandLane.Carries (l : OperandLane) : Operand → Prop
  | .imm v => l.mode = 0 ∧ l.val = v
  | .reg r => l.mode = 1 ∧ l.reg.toNat = r.index
  | .dir a => l.mode = 2 ∧ l.val = a
  | .ind r => l.mode = 3 ∧ l.reg.toNat = r.index

end Sys2Proof

namespace Sys2Proof.Machine

/-! ### States -/

/-- The Engine accepts a start: no run in progress and no fault latched (R132, R143). -/
abbrev State.ready (s : State) : Prop := s.running = false ∧ s.fault = none

/-- A latched PreconditionFault: a state gone wrong, never the final state of a program (R235). -/
abbrev State.goneWrong (s : State) : Prop := s.fault ≠ none

/-- The phase a nonzero step number belongs to is the current one (R134). -/
abbrev State.phaseMatchesStep (s : State) : Prop := s.stepIndex = 0 ∨ s.stepIndex = s.phase.number

/-- While a run is in progress a well-formed instruction is in flight, a phase is left to perform and no
fault is latched (R132, R94, R141, R234). -/
abbrev State.runInOrder (s : State) : Prop :=
  s.running = true → s.cur.map Instr.wf = some true ∧ s.stepIndex.val < 5 ∧ s.fault = none

/-- The invariant of the machine: memory in canonical form (R62, R44), the execution state consistent
(R34 to R37), every component inactive at a phase boundary (R43). -/
abbrev State.inv (s : State) : Prop :=
  s.mem.wf ∧ s.phaseMatchesStep ∧ s.runInOrder ∧ s.active = Components.none

/-! ### Results -/

/-- The signed reading of a word, as R10 writes it out. -/
def signedValue (w : Word) : Int :=
  if w.toNat < 2 ^ 31 then (w.toNat : Int) else (w.toNat : Int) - 2 ^ 32

/-- `trunc(p / q) = sign(p) * sign(q) * floor(|p| / |q|)` (R10). -/
def truncQuotient (p q : Int) : Int := p.sign * q.sign * ((p.natAbs / q.natAbs : Nat) : Int)

/-- `v = mask32(n)`: the non-negative remainder of `n` modulo 2^32 (R10). -/
abbrev IsMask32 (v : Word) (n : Int) : Prop := (v.toNat : Int) = n % 2 ^ 32

/-- The state FETCH leaves the registers in: MAR holds the old PC, IR the cell there, PC is 4 further on
(R135). -/
def State.fetched (s : State) : State :=
  { s with regs := { s.regs with mar := s.regs.pc, ir := s.mem.read s.regs.pc, pc := s.regs.pc + 4 } }

/-! ### Where an instruction stores -/

/-- The address EXECUTE of an instruction stores to from a state, if it stores: that of a DIRECT or
INDIRECT destination (R151); DIV by zero writes nothing (R175). -/
def executeStoresAt (i : Instr) (s : State) : Option Word :=
  match i with
  | .add d _ _ | .sub d _ _ | .mul d _ _ | .mov d _ => effAddr d s
  | .div d _ b => if readOperand b s = 0 then none else effAddr d s
  | .nop | .load .. | .store .. | .cmp .. | .jmp _ | .jz _ | .jnz _ => none

/-- The address MEMORY of an instruction stores to from a state, if it stores: STORE's effective address,
and the cell of a LOAD's destination, evaluated after MAR and MDR are staged (R192, R194). -/
def memoryStoresAt (i : Instr) (s : State) : Option Word :=
  match i with
  | .load d a => (effAddr a s).bind fun ea => effAddr d ((s.setReg .mar ea).setReg .mdr (s.memRead ea))
  | .store _ a => effAddr a s
  | .nop | .add .. | .sub .. | .mul .. | .div .. | .mov .. | .cmp .. | .jmp _ | .jz _ | .jnz _ => none

/-- The address a run of an instruction stores to, if it stores; no run stores twice. -/
def runStoresAt (i : Instr) (s : State) : Option Word :=
  (executeStoresAt i s.fetched).or (memoryStoresAt i s.fetched)

/-- The address the next step stores to, if it stores: that of the run it completes, or of the phase it
performs. -/
def stepStoresAt (s : State) : Option Word :=
  match s.inbox with
  | .run p :: _ =>
    if s.ignoresStart then none
    else
      match decodePort p with
      | .ok i => runStoresAt i s
      | .error _ => none
  | .tick :: _ =>
    if s.running then
      match s.cur, nextPhase s.stepIndex with
      | some i, some .execute => executeStoresAt i s
      | some i, some .memory => memoryStoresAt i s
      | _, _ => none
    else none
  | [] => if s.ignoresStart then none else (supplyPC s.program s.regs.pc).bind fun i => runStoresAt i s
  | .start _ :: _ | .abort :: _ | .reset :: _ => none

/-! ### Frames -/

/-- Memory `m'` is memory `m` after the word `v` was stored at `a`: the cell holds it, every other cell
reads as before, and the key set gains the address. -/
def StoredAt (a v : Word) (m m' : Memory) : Prop :=
  m'.read a = v ∧ (∀ b, b ≠ a → m'.read b = m.read b) ∧ ∀ n, n ∈ m'.written ↔ n = a.toNat ∨ n ∈ m.written

/-- Memory `m'` is memory `m` after a store at the address, if one is given: exactly this address joined
the key set and every other cell reads as before; with no address given it is the same memory. -/
def StoredOnlyAt : Option Word → Memory → Memory → Prop
  | none, m, m' => m' = m
  | some a, m, m' => (∀ n, n ∈ m'.written ↔ n = a.toNat ∨ n ∈ m.written) ∧ ∀ b, b ≠ a → m'.read b = m.read b

/-- The word `v` went to the destination `dst` and to nothing else: from registers `x` and memory `m` the
state `t` was left (R151). A REGISTER takes it, a DIRECT or INDIRECT operand's cell takes it, an
IMMEDIATE drops it; every other register and every other cell is as it was. -/
def Receives (dst : Operand) (v : Word) (x : Regs) (m : Memory) (t : State) : Prop :=
  match dst with
  | .imm _ => t.regs = x ∧ t.mem = m
  | .reg r => t.regs.get r = v ∧ (∀ q, q ≠ r → t.regs.get q = x.get q) ∧ t.mem = m
  | .dir a => t.regs = x ∧ StoredAt a v m t.mem
  | .ind r => t.regs = x ∧ StoredAt (x.get r) v m t.mem

/-- What a completed run of `i` from `s` leaves outside registers and memory (R37, R141): the execution
state of the completed run, idle outputs, no fault, and the host's own inputs as they were. That `phase`,
`step` and `cur` stay is the spec's decision D20 (log entry 18), that the inputs stay the model's own
(log entry 1). -/
def Completed (i : Instr) (s t : State) : Prop :=
  t.phase = .writeback ∧ t.stepIndex = 5 ∧ t.cur = some i ∧ t.running = false ∧ t.fault = none
    ∧ t.signals = ControlSignals.idle ∧ t.active = Components.none ∧ t.inbox = s.inbox ∧ t.program = s.program

end Sys2Proof.Machine
end

