-- ==== Sys2Proof/Certificates/Slice0/Obligations.lean ====
section
/-! DEFINITION. The statements for the provers. A result is stated over `s.fetched`, the registers FETCH
leaves (R135), because every operand is resolved after FETCH; `Receives`, `StoredAt` and `Completed`
(Safety.lean) say what changed and that nothing else did. Wherever a statement speaks of `inbox`, `program`
or a step's input, the form of the host's inputs is the model's own (log entry 1); wherever it speaks of a
tick, that phases are paced by ticks is the spec's decision D23. -/

open Sys2Proof Sys2Proof.Machine

/-! ### The results of the instructions -/

/-- ADD writes `mask32(a + b)` to its destination and nothing else, sets no flag, never fails; its opcode
byte is 0x10 and its third operand is not encoded. That a write to an IMMEDIATE is dropped is the spec's
decision D7, here and in every statement that uses `Receives`. -/
def Obligations.AddStoresWrappedSum : Prop :=
  ∀ (s : State) (dst src1 src2 : Operand), s.ready → s.mem.wf →
    (∃ (t : State) (v : Word), exec (.add dst src1 src2) s = .next t
      ∧ IsMask32 v ((readOperand src1 s.fetched).toNat + (readOperand src2 s.fetched).toNat)
      ∧ Receives dst v s.fetched.regs s.mem t ∧ Completed (.add dst src1 src2) s t)
    ∧ (encode (.add dst src1 src2)).toNat / 2 ^ 24 = 0x10
    ∧ ∀ other, encode (.add dst src1 other) = encode (.add dst src1 src2)

/-- SUB writes `mask32(a - b)`, `op[1]` minus `op[2]`, to its destination and nothing else, sets no
flag, never fails; its opcode byte is 0x11 and its third operand is not encoded. -/
def Obligations.SubStoresWrappedDifference : Prop :=
  ∀ (s : State) (dst src1 src2 : Operand), s.ready → s.mem.wf →
    (∃ (t : State) (v : Word), exec (.sub dst src1 src2) s = .next t
      ∧ IsMask32 v (((readOperand src1 s.fetched).toNat : Int) - (readOperand src2 s.fetched).toNat)
      ∧ Receives dst v s.fetched.regs s.mem t ∧ Completed (.sub dst src1 src2) s t)
    ∧ (encode (.sub dst src1 src2)).toNat / 2 ^ 24 = 0x11
    ∧ ∀ other, encode (.sub dst src1 other) = encode (.sub dst src1 src2)

/-- MUL writes the low 32 bits of the exact product, the same under the signed and the unsigned reading,
to its destination and nothing else. That the product is exact is the spec's decision D5. -/
def Obligations.MulStoresLowProduct : Prop :=
  ∀ (s : State) (dst src1 src2 : Operand), s.ready → s.mem.wf →
    ∃ (t : State) (v : Word), exec (.mul dst src1 src2) s = .next t
      ∧ IsMask32 v ((readOperand src1 s.fetched).toNat * (readOperand src2 s.fetched).toNat)
      ∧ IsMask32 v (signedValue (readOperand src1 s.fetched) * signedValue (readOperand src2 s.fetched))
      ∧ Receives dst v s.fetched.regs s.mem t ∧ Completed (.mul dst src1 src2) s t

/-- DIV with a divisor that is not 0 writes the quotient of the signed values, rounded toward zero and
masked, to its destination and nothing else. The signed reading is the spec's decision D3. -/
def Obligations.DivStoresTruncatedQuotient : Prop :=
  ∀ (s : State) (dst src1 src2 : Operand), s.ready → s.mem.wf → readOperand src2 s.fetched ≠ 0 →
    ∃ (t : State) (v : Word), exec (.div dst src1 src2) s = .next t
      ∧ IsMask32 v (truncQuotient (signedValue (readOperand src1 s.fetched)) (signedValue (readOperand src2 s.fetched)))
      ∧ Receives dst v s.fetched.regs s.mem t ∧ Completed (.div dst src1 src2) s t

/-- DIV with a zero divisor completes, writes nothing beyond FETCH's effects, and raises no fault:
"DIV with a zero divisor performs no write but still reports the DIV operation". What it still reports:
the ALU tag through EXECUTE (the spec's decision D14 places the tag in DECODE) and register-write in
WRITEBACK. -/
def Obligations.DivByZeroWritesNothing : Prop :=
  ∀ (s : State) (dst src1 src2 : Operand), s.ready → readOperand src2 s.fetched = 0 →
    (∃ t : State, exec (.div dst src1 src2) s = .next t
      ∧ t.regs = s.fetched.regs ∧ t.mem = s.mem ∧ Completed (.div dst src1 src2) s t)
    ∧ ∃ f d e m w : TraceRecord, runTrace settings (.div dst src1 src2) s = some [f, d, e, m, w]
      ∧ e.signals.aluOp = .div ∧ w.signals.regWrite = true

/-- MOV copies `operand[1]` to `operand[0]` and changes nothing else; MAR and MDR are left alone by its
memory operands. The drop of a write to an IMMEDIATE is the spec's decision D7. -/
def Obligations.MovCopiesSource : Prop :=
  ∀ (s : State) (dst src : Operand), s.ready → s.mem.wf →
    ∃ t : State, exec (.mov dst src) s = .next t
      ∧ Receives dst (readOperand src s.fetched) s.fetched.regs s.mem t ∧ Completed (.mov dst src) s t

/-- LOAD sets MAR to the effective address and MDR to the word there, then writes that word to its
destination, and changes nothing else. The order is the spec's decision D27. -/
def Obligations.LoadStagesAndWritesWord : Prop :=
  ∀ (s : State) (dst addr : Operand) (ea : Word), s.ready → s.mem.wf → effAddr addr s.fetched = some ea →
    ∃ t : State, exec (.load dst addr) s = .next t
      ∧ Receives dst (s.mem.read ea) { s.fetched.regs with mar := ea, mdr := s.mem.read ea } s.mem t
      ∧ Completed (.load dst addr) s t

/-- STORE sets MAR to the effective address, then MDR to the value of its source, and stores that word at
the address; no other register and no other cell changes. The order is the spec's decision D27: a MAR
source reads the new MAR. -/
def Obligations.StoreStagesAndStoresWord : Prop :=
  ∀ (s : State) (src addr : Operand) (ea : Word), s.ready → s.mem.wf → effAddr addr s.fetched = some ea →
    ∃ t : State, exec (.store src addr) s = .next t
      ∧ t.regs = { s.fetched.regs with mar := ea, mdr := readOperand src (s.fetched.setReg .mar ea) }
      ∧ StoredAt ea (readOperand src (s.fetched.setReg .mar ea)) s.mem t.mem
      ∧ Completed (.store src addr) s t

/-- The address of LOAD and STORE: a DIRECT operand's literal, an INDIRECT operand's register after FETCH
(so `[PC]` is the incremented PC and `[MAR]` the old PC). LOAD and STORE with an IMMEDIATE or REGISTER
address stop by name from every ready state: the spec's decision D8 has a model refuse them. -/
def Obligations.AddressOperandDecidesLoadAndStore : Prop :=
  ∀ (s : State) (data : Operand), s.ready →
    (∀ a, effAddr (.dir a) s.fetched = some a) ∧ (∀ r, effAddr (.ind r) s.fetched = some (s.fetched.regs.get r))
    ∧ effAddr (.ind .pc) s.fetched = some (s.regs.pc + 4) ∧ effAddr (.ind .mar) s.fetched = some s.regs.pc
    ∧ (∀ v, exec (.load data (.imm v)) s = .refused .addressOperandNotAdmitted
        ∧ exec (.store data (.imm v)) s = .refused .addressOperandNotAdmitted)
    ∧ ∀ r, exec (.load data (.reg r)) s = .refused .addressOperandNotAdmitted
        ∧ exec (.store data (.reg r)) s = .refused .addressOperandNotAdmitted

/-- CMP sets PSW to 0x40, 0x80 or 0 as the signed values are equal, less or greater, and changes nothing
else; operands are read before PSW changes. The exact signed difference is the spec's decisions D3 and
D4. -/
def Obligations.CmpSetsFlagsOfExactDifference : Prop :=
  ∀ (s : State) (left right : Operand), s.ready →
    ∃ t : State, exec (.cmp left right) s = .next t
      ∧ t.regs = { s.fetched.regs with
          psw := if signedValue (readOperand left s.fetched) = signedValue (readOperand right s.fetched) then 0x40
            else if signedValue (readOperand left s.fetched) < signedValue (readOperand right s.fetched) then 0x80
            else 0 }
      ∧ t.mem = s.mem ∧ Completed (.cmp left right) s t

/-- JMP sets PC to the value of its operand and changes nothing else beyond FETCH's effects. That a memory
operand gives the word read and not its address is the spec's decision D9. -/
def Obligations.JmpSetsPc : Prop :=
  ∀ (s : State) (target : Operand), s.ready →
    ∃ t : State, exec (.jmp target) s = .next t
      ∧ t.regs = { s.fetched.regs with pc := readOperand target s.fetched }
      ∧ t.mem = s.mem ∧ Completed (.jmp target) s t

/-- JZ sets PC to the value of its operand exactly when PSW bit 6 is set, and otherwise leaves FETCH's PC;
nothing else changes. The value of a memory operand as the target is the spec's decision D9. -/
def Obligations.JzJumpsOnZeroFlag : Prop :=
  ∀ (s : State) (target : Operand), s.ready →
    ∃ t : State, exec (.jz target) s = .next t
      ∧ t.regs = { s.fetched.regs with
          pc := if s.regs.psw.toNat / 64 % 2 = 1 then readOperand target s.fetched else s.regs.pc + 4 }
      ∧ t.mem = s.mem ∧ Completed (.jz target) s t

/-- JNZ sets PC to the value of its operand exactly when PSW bit 6 is clear, and otherwise leaves FETCH's
PC; nothing else changes. The value of a memory operand as the target is the spec's decision D9. -/
def Obligations.JnzJumpsOnClearZeroFlag : Prop :=
  ∀ (s : State) (target : Operand), s.ready →
    ∃ t : State, exec (.jnz target) s = .next t
      ∧ t.regs = { s.fetched.regs with
          pc := if s.regs.psw.toNat / 64 % 2 = 0 then readOperand target s.fetched else s.regs.pc + 4 }
      ∧ t.mem = s.mem ∧ Completed (.jnz target) s t

/-- NOP does nothing beyond FETCH, asserts nothing in WRITEBACK and encodes as the word 0. That every
control signal is idle in its WRITEBACK rests on the row of NOP in the DECODE_SIGNALS table, the spec's
decision D14 (log entry 7). -/
def Obligations.NopOnlyFetches : Prop :=
  (∀ s : State, s.ready →
    ∃ t : State, exec .nop s = .next t
      ∧ t.regs.mar = s.regs.pc ∧ t.regs.ir = s.mem.read s.regs.pc ∧ t.regs.pc = s.regs.pc + 4
      ∧ (∀ r, r ≠ .mar → r ≠ .ir → r ≠ .pc → t.regs.get r = s.regs.get r)
      ∧ t.mem = s.mem ∧ Completed .nop s t
      ∧ ∃ f d e m w : TraceRecord, runTrace settings .nop s = some [f, d, e, m, w]
        ∧ w.active = Components.none ∧ w.signals = ControlSignals.idle)
  ∧ encode .nop = 0x00000000

/-! ### Rules over all instructions -/

/-- Every well-formed instruction completes from every ready state, with `running` 0, idle control
signals, and `phase`, `step` and `cur` left at their WRITEBACK values. That these three stay is the spec's
decision D20 (log entry 18); that the host's own inputs and program stay as they were is the model's form
of them (log entry 1). -/
def Obligations.EveryWellFormedInstructionCompletes : Prop :=
  ∀ (i : Instr) (s : State), i.wf = true → s.ready → ∃ t : State, exec i s = .next t ∧ Completed i s t

/-- Only CMP writes PSW as a side effect, and then all of it; every other instruction leaves PSW as it
was unless PSW is its destination operand. -/
def Obligations.OnlyCmpWritesPswImplicitly : Prop :=
  ∀ (i : Instr) (s t : State), s.ready → exec i s = .next t →
    (i.type = .cmp → t.regs.psw = 0x00000000 ∨ t.regs.psw = 0x00000040 ∨ t.regs.psw = 0x00000080)
    ∧ (i.type ≠ .cmp → i.destination ≠ some (.reg .psw) → t.regs.psw = s.regs.psw)

/-- R33: the implicit writers of MAR and MDR. FETCH sets MAR for every instruction; the MEMORY phase of
LOAD and STORE sets both; operand accesses write neither. -/
def Obligations.MarAndMdrFollowFetchLoadAndStore : Prop :=
  ∀ (i : Instr) (s t : State), s.ready → s.mem.wf → exec i s = .next t →
    (∀ dst addr ea, i = .load dst addr → effAddr addr s.fetched = some ea →
      (dst ≠ .reg .mar → t.regs.mar = ea) ∧ (dst ≠ .reg .mdr → t.regs.mdr = s.mem.read ea))
    ∧ (∀ src addr ea, i = .store src addr → effAddr addr s.fetched = some ea →
      t.regs.mar = ea ∧ t.mem.read ea = t.regs.mdr)
    ∧ (i.type ≠ .load → i.type ≠ .store →
      (i.destination ≠ some (.reg .mar) → t.regs.mar = s.regs.pc)
      ∧ (i.destination ≠ some (.reg .mdr) → t.regs.mdr = s.regs.mdr))

/-- R31: SP is a register like a general one. An instruction none of whose operands names it neither reads
nor writes it: another SP gives the same run with that other SP; only its reset value is its own. The
same is stated of R0 to R7, which nothing writes implicitly (R21). -/
def Obligations.UnnamedGeneralRegistersAndSpAreUntouched : Prop :=
  (∀ (i : Instr) (r : Reg) (s t : State) (v : Word),
    r ∉ [Reg.pc, .ir, .mar, .mdr, .psw] → s.ready → (∀ o ∈ i.operands, ¬ Operand.names o r) →
    exec i s = .next t →
    t.regs.get r = s.regs.get r ∧ exec i (s.setReg r v) = .next (t.setReg r v))
  ∧ State.reset.regs.sp = 1000 ∧ ∀ r, r ≠ .sp → State.reset.regs.get r = 0

/-- What an earlier instruction left in IR or MAR reaches no later run: FETCH overwrites both before any
operand is resolved, and IR is never decoded. -/
def Obligations.OldIrAndMarReachNoRun : Prop :=
  ∀ (i : Instr) (s : State) (v w : Word), s.ready →
    (∀ t, exec i s = .next t → exec i ((s.setReg .ir v).setReg .mar w) = .next t)
    ∧ (∀ r, exec i s = .refused r → exec i ((s.setReg .ir v).setReg .mar w) = .refused r)

/-- JZ and JNZ read one bit of PSW and nothing else of it: two states that agree but for the other 31 bits
jump to the same place, for a target that does not name PSW. Target resolution is the spec's decision
D9. -/
def Obligations.ConditionalJumpsReadOnlyTheZeroBit : Prop :=
  ∀ (s : State) (target : Operand) (psw : Word), s.ready → ¬ Operand.names target .psw →
    psw.getLsbD 6 = s.regs.psw.getLsbD 6 →
    ∃ t u : State, exec (.jz target) s = .next t ∧ exec (.jnz target) s = .next u
      ∧ exec (.jz target) (s.setReg .psw psw) = .next (t.setReg .psw psw)
      ∧ exec (.jnz target) (s.setReg .psw psw) = .next (u.setReg .psw psw)
      ∧ (t.regs.pc = s.regs.pc + 4 ∨ u.regs.pc = s.regs.pc + 4)

/-- A CMP followed by a jump: JZ is taken exactly on equal signed values and JNZ exactly on different ones
(the table of spec/43_compare_jump_nop.md; the signed reading is the spec's decision D3). -/
def Obligations.CompareThenConditionalJump : Prop :=
  ∀ (s : State) (left right : Operand) (v : Word), s.ready →
    ∃ t z n : State, exec (.cmp left right) s = .next t ∧ exec (.jz (.imm v)) t = .next z
      ∧ exec (.jnz (.imm v)) t = .next n
      ∧ (signedValue (readOperand left s.fetched) = signedValue (readOperand right s.fetched) →
          z.regs.pc = v ∧ n.regs.pc = s.regs.pc + 8)
      ∧ (signedValue (readOperand left s.fetched) ≠ signedValue (readOperand right s.fetched) →
          z.regs.pc = s.regs.pc + 8 ∧ n.regs.pc = v)

/-- A word stored by one instruction is loaded by the next: STORE then LOAD at one DIRECT address yields
the stored word in the destination register, in MDR and in the cell. -/
def Obligations.StoreThenLoadReturnsWord : Prop :=
  ∀ (s : State) (a : Word) (src dst : Reg), s.ready → s.mem.wf → src ∉ [Reg.pc, .ir, .mar] →
    ∃ t u : State, exec (.store (.reg src) (.dir a)) s = .next t ∧ exec (.load (.reg dst) (.dir a)) t = .next u
      ∧ u.regs.get dst = s.regs.get src ∧ u.mem.read a = s.regs.get src ∧ u.regs.mdr = s.regs.get src

/-! ### Parameters -/

/-- R39: no rule that changes state reads a control signal. Another table of DECODE_SIGNALS and another
value of the signals at the start give the same completed run, and every single phase the same registers
and memory. -/
def Obligations.ControlSignalsGateNothing : Prop :=
  (∀ (cfg : Config) (table : InstrType → ControlSignals) (i : Instr) (s : State) (σ : ControlSignals),
    runWith { cfg with decodeSignals := table } i { s with signals := σ } = runWith cfg i s)
  ∧ ∀ (s t : State) (σ : ControlSignals), tick s = .next t →
    ∃ u : State, tick { s with signals := σ } = .next u ∧ u.regs = t.regs ∧ u.mem = t.mem

/-- The meanings are the runs under the spec's settings: from a ready state a well-formed instruction ends
where the run as one function under `settings` ends. -/
def Obligations.ExecIsTheRunUnderTheSettings : Prop :=
  ∀ (i : Instr) (s t : State), i.wf = true → s.ready → (exec i s = .next t ↔ runWith settings i s = some t)

/-- Both readings of words give the same run where they cannot differ: DIV and CMP depend on the reading
only through an operand with bit 31 set, and no other instruction depends on it at all. -/
def Obligations.ReadingsAgreeBelowBit31 : Prop :=
  ∀ (cfg : Config) (i : Instr) (s : State),
    (∀ d a b, i = .div d a b →
      (readOperand a s.fetched).toNat < 2 ^ 31 ∧ (readOperand b s.fetched).toNat < 2 ^ 31) →
    (∀ a b, i = .cmp a b →
      (readOperand a s.fetched).toNat < 2 ^ 31 ∧ (readOperand b s.fetched).toNat < 2 ^ 31) →
    runWith { cfg with reading := .unsigned } i s = runWith { cfg with reading := .signed } i s

/-- The two settings of JUMP_TARGET_MODE differ only for jumps with a DIRECT or INDIRECT target. -/
def Obligations.JumpModesAgreeOnImmediateAndRegister : Prop :=
  ∀ (cfg : Config) (i : Instr) (s : State),
    (∀ target, i = .jmp target ∨ i = .jz target ∨ i = .jnz target → target.isAddress = false) →
    runWith { cfg with jumpTargetMode := .address } i s = runWith { cfg with jumpTargetMode := .value } i s

/-! ### The phases -/

/-- R135: FETCH. -/
def Obligations.FetchPhaseEffect : Prop :=
  ∀ s : State,
    (fetchPhase s).phase = .fetch ∧ (fetchPhase s).stepIndex = 1
    ∧ (fetchBody s).active = ⟨false, true, false, true, true⟩ ∧ (fetchPhase s).active = Components.none
    ∧ (fetchPhase s).signals = { s.signals with memRead := true, pcWrite := true, irWrite := true }
    ∧ (fetchPhase s).regs.mar = s.regs.pc ∧ (fetchPhase s).regs.ir = s.mem.read s.regs.pc
    ∧ IsMask32 (fetchPhase s).regs.pc (s.regs.pc.toNat + 4)
    ∧ (∀ r, r ≠ .mar → r ≠ .ir → r ≠ .pc → (fetchPhase s).regs.get r = s.regs.get r)
    ∧ (fetchPhase s).mem = s.mem ∧ (fetchPhase s).cur = s.cur

/-- R140: WRITEBACK changes no register and no cell; it activates the register file and asserts
register-write for LOAD, ADD, SUB, MUL, DIV and MOV, and neither for the other six types. -/
def Obligations.WritebackIsOnlyAMarker : Prop :=
  ∀ (i : Instr) (s : State),
    (writebackBody i s).phase = .writeback ∧ (writebackBody i s).stepIndex = 5
    ∧ (writebackBody i s).regs = s.regs ∧ (writebackBody i s).mem = s.mem
    ∧ (i.type ∈ [InstrType.load, .add, .sub, .mul, .div, .mov] →
        (writebackBody i s).active = ⟨false, false, true, false, false⟩
        ∧ (writebackBody i s).signals = { s.signals with regWrite := true })
    ∧ (i.type ∈ [InstrType.store, .cmp, .jmp, .jz, .jnz, .nop] →
        (writebackBody i s).active = Components.none ∧ (writebackBody i s).signals = s.signals)
    ∧ (deactAll (writebackBody i s)).active = Components.none

/-- R43: activations are set at the start of a phase that uses the component and cleared at the end of every
phase: every phase, from any state, leaves every component inactive, and so does every step and reset. No
run reads an activation. (Which components the MEMORY phase of LOAD and STORE uses is not stated here.) -/
def Obligations.ComponentsInactiveAtEveryPhaseBoundary : Prop :=
  (∀ (s : State) (cfg : Config) (i : Instr) (e : State → State) (m : State → Option State),
    (fetchPhase s).active = Components.none ∧ (decodePhase cfg i s).active = Components.none
    ∧ (executePhase e s).active = Components.none ∧ (∀ t, memoryPhase i m s = some t → t.active = Components.none)
    ∧ (writebackPhase i s).active = Components.none)
  ∧ (∀ (i : Instr) (s : State) (l : List TraceRecord), runTrace settings i s = some l →
      ∃ used : Components, l.map TraceRecord.active =
        [⟨false, true, false, true, true⟩, ⟨false, true, true, false, false⟩, ⟨true, true, false, false, false⟩, used,
         if writesRegister i.type then ⟨false, false, true, false, false⟩ else Components.none]
        ∧ (i.type ≠ .load → i.type ≠ .store → used = Components.none))
  ∧ (∀ s t : State, s.active = Components.none → step s = .next t → t.active = Components.none)
  ∧ State.reset.active = Components.none
  ∧ ∀ (i : Instr) (s : State) (a : Components), s.ready → exec i { s with active := a } = exec i s

/-- The trace of a run: five records, one per phase in order, numbered 1 to 5; DECODE and WRITEBACK leave
registers and memory as the phase before left them, and the last record holds the registers and memory
of the completed run. That the trace has this form is the spec's own choice. -/
def Obligations.TraceHasFiveRecordsInOrder : Prop :=
  ∀ (i : Instr) (s t : State), s.ready → i.wf = true → exec i s = .next t →
    ∃ f d e m w : TraceRecord, runTrace settings i s = some [f, d, e, m, w]
      ∧ [f, d, e, m, w].map TraceRecord.phase = [.fetch, .decode, .execute, .memory, .writeback]
      ∧ [f, d, e, m, w].map TraceRecord.step = [1, 2, 3, 4, 5]
      ∧ d.regs = f.regs ∧ d.mem = f.mem ∧ w.regs = m.regs ∧ w.mem = m.mem
      ∧ w.regs = t.regs ∧ w.mem = t.mem
      ∧ d.active = ⟨false, true, true, false, false⟩ ∧ e.active = ⟨true, true, false, false, false⟩

/-- Submitting an instruction with `start` and giving five ticks ends exactly where the run as one function
ends, with the same inputs left. That the phases are paced by ticks is the spec's decision D23; the form of
the host's inputs is the model's own (log entry 1). -/
def Obligations.FiveTicksCompleteTheRun : Prop :=
  ∀ (s : State) (p : Port) (i : Instr) (rest : List HostEvent), s.ready → decodePort p = .ok i → i.wf = true →
    ∃ t : State, core.run 6 { s with inbox := [.start p, .tick, .tick, .tick, .tick, .tick] ++ rest } = .next t
      ∧ exec i { s with inbox := rest } = .next t

/-- A run that is started and not abandoned completes in exactly five phases: after `n` ticks it is still in
progress if `n < 5`, at step `n`, and it is over after the fifth. That `cur` and `step` still show the
instruction and 5 once it is over is the spec's decision D20 (log entry 18); that the phases are paced by
ticks is its decision D23, and the form of the host's inputs is the model's own (log entry 1). -/
def Obligations.RunCompletesInExactlyFivePhases : Prop :=
  ∀ (s : State) (p : Port) (i : Instr) (n : Nat), s.ready → decodePort p = .ok i → i.wf = true → n ≤ 5 →
    ∃ t : State, core.run (n + 1) { s with inbox := .start p :: List.replicate n .tick } = .next t
      ∧ t.cur = some i ∧ t.stepIndex.val = n ∧ (t.running = true ↔ n < 5)

/-- `abort` at a phase boundary stops the run and changes nothing else; registers and memory stay as the
last completed phase left them, and the exit actions are not performed. With no run in progress it
does nothing. The protocol is the spec's decision D13. -/
def Obligations.AbortOnlyStopsTheRun : Prop :=
  ∀ (s : State) (rest : List HostEvent), s.inbox = .abort :: rest →
    step s = .next { s with running := false, inbox := rest }

/-- A tick performs one phase: DECODE and WRITEBACK change no register and no cell, EXECUTE of LOAD and
STORE changes none, MEMORY of every other type changes none. -/
def Obligations.QuietPhasesChangeNoRegisterAndNoCell : Prop :=
  ∀ (s t : State), s.running = true → tick s = .next t →
    (s.stepIndex = 1 ∨ s.stepIndex = 4 → t.regs = s.regs ∧ t.mem = s.mem)
    ∧ (s.stepIndex = 2 → (∃ d a, s.cur = some (.load d a) ∨ s.cur = some (.store d a)) →
        t.regs = s.regs ∧ t.mem = s.mem)
    ∧ (s.stepIndex = 3 → (∀ d a, s.cur ≠ some (.load d a) ∧ s.cur ≠ some (.store d a)) →
        t.regs = s.regs ∧ t.mem = s.mem)

/-! ### Starting, faults, reset -/

/-- A step runs the decoded instruction: from a ready state, a pending `run` whose bundle carries an
instruction value is the run of that instruction with the input consumed; a pending `start` is its entry
alone; with no input pending, the reference supply's instruction at PC runs. The form of the host's
inputs is the model's own (log entry 1). -/
def Obligations.StepRunsTheDecodedInstruction : Prop :=
  ∀ (s : State) (i : Instr), s.ready →
    (∀ p rest, s.inbox = .run p :: rest → decodePort p = .ok i → step s = exec i { s with inbox := rest })
    ∧ (∀ p rest, s.inbox = .start p :: rest → decodePort p = .ok i → i.wf = true →
        step s = .next { s with inbox := rest, cur := some i, running := true, stepIndex := 0, signals := .idle })
    ∧ (s.inbox = [] → s.regs.pc.toNat % 4 = 0 → s.program[s.regs.pc.toNat / 4]? = some i → step s = exec i s)

/-- A program ends when the host submits nothing more: with no input pending, a PC that is no multiple of
4 or lies past the program leaves the machine exactly as it is, and so does every state that is not
ready. The reference supply is the spec's decision D24. -/
def Obligations.QuietHostChangesNothing : Prop :=
  ∀ s : State, s.inbox = [] →
    (s.regs.pc.toNat % 4 ≠ 0 ∨ s.program.length ≤ s.regs.pc.toNat / 4 ∨ ¬ s.ready) → step s = .next s

/-- A start is ignored while a run is in progress or a fault is latched: nothing but the input's
consumption happens, whatever the bundle. The spec's decisions D11 and D12; that an ignored `run` input
gives no ticks either, so that a run in progress stays where it is, is the model's choice (log entry 1). -/
def Obligations.StartIsIgnoredWhenNotReady : Prop :=
  ∀ (s : State) (p : Port) (rest : List HostEvent), ¬ s.ready →
    s.inbox = .start p :: rest ∨ s.inbox = .run p :: rest → step s = .next { s with inbox := rest }

/-- A PreconditionFault changes `fault` and nothing else, and the checks come in the order presence, type,
operand count, with the numbers 1, 3 and 2 in the field the host sees, which is 0 with no fault. The codes
and the order are the spec's decision D10. -/
def Obligations.PreconditionFaultChangesOnlyFault : Prop :=
  ∀ (s : State) (p : Port) (rest : List HostEvent), s.ready →
    s.inbox = .start p :: rest ∨ s.inbox = .run p :: rest →
    s.faultCode = 0
    ∧ (p.valid = false →
        ∃ t : State, step s = .next t ∧ t = { s with inbox := rest, fault := some .noInstruction } ∧ t.faultCode = 1)
    ∧ (p.valid = true → (∀ y : InstrType, y.opcode ≠ p.type) →
        ∃ t : State, step s = .next t ∧ t = { s with inbox := rest, fault := some .unknownType } ∧ t.faultCode = 3)
    ∧ (p.valid = true → (∃ y : InstrType, y.opcode = p.type ∧ y.arity ≠ p.nops.toNat) →
        ∃ t : State, step s = .next t ∧ t = { s with inbox := rest, fault := some .arityMismatch } ∧ t.faultCode = 2)

/-- A latched fault stays: from a state of the invariant with a fault latched, every step that is not a
reset leaves registers, memory and the fault as they are, and a reset clears it. The latch is the spec's
decision D11. -/
def Obligations.FaultIsStickyUntilReset : Prop :=
  ∀ (s : State), s.inv → s.goneWrong →
    ∃ t : State, step s = .next t
      ∧ (s.inbox.head? = some .reset → t.fault = none)
      ∧ (s.inbox.head? ≠ some .reset → t = { s with inbox := s.inbox.tail })

/-- Reset, whatever the state before it: every register, cell, execution-state field, signal and
component takes its reset value. That `running` and `fault` are 0 and that a run in progress is ended are the
spec's decisions D11 and D21; that the host's own inputs stay is the model's choice (log entry 14). -/
def Obligations.ResetReinitialisesTheEngine : Prop :=
  ∀ (s : State) (rest : List HostEvent), s.inbox = .reset :: rest →
    ∃ t : State, step s = .next t ∧ t.inbox = rest ∧ t.program = s.program
      ∧ t.regs.sp = 1000 ∧ (∀ r, r ≠ .sp → t.regs.get r = 0)
      ∧ (∀ a, t.mem.read a = 0) ∧ t.mem.written = []
      ∧ t.phase = .fetch ∧ t.stepIndex = 0 ∧ t.cur = none ∧ t.running = false ∧ t.faultCode = 0
      ∧ t.signals = ControlSignals.idle ∧ t.active = Components.none

/-! ### Memory -/

/-- R61: each address names one independent cell: a store at one address is read back there and changes no
other cell. -/
def Obligations.CellsAreIndependent : Prop :=
  ∀ (m : Memory) (a b v : Word), m.wf → (m.write a v).read b = if b = a then v else m.read b

/-- The host sees which addresses were stored to since reset. A run that stores at an address, whatever the
word, 0 and an unchanged word among them, puts this address into the key set and no other; a run that stores
nothing leaves memory as it was. The same of every step but a reset, and every cell outside the key set
reads 0. The address is that of the destination operand, or the effective address of a STORE, evaluated
where the instruction evaluates it. -/
def Obligations.KeySetRecordsEveryStore : Prop :=
  (∀ (i : Instr) (s t : State), s.ready → exec i s = .next t → StoredOnlyAt (runStoresAt i s) s.mem t.mem)
  ∧ ∀ (s t : State), s.inv → step s = .next t → s.inbox.head? ≠ some .reset →
    StoredOnlyAt (stepStoresAt s) s.mem t.mem
    ∧ (∀ a, a.toNat ∉ t.mem.written → t.mem.read a = 0)

/-! ### The whole machine -/

/-- The invariant is kept by every step, from every state that meets it: the memory keeps its canonical
form, the execution state stays consistent, and every component is inactive at every phase boundary. -/
def Obligations.EveryStepKeepsTheInvariant : Prop := ∀ s t : State, s.inv → step s = .next t → t.inv

/-- The reset state meets the invariant. -/
def Obligations.ResetMeetsTheInvariant : Prop := State.reset.inv

/-- No instruction, input or supply stops the machine with a fault: from every state of the invariant a
step either goes on or is refused. -/
def Obligations.NoStepFaults : Prop := ∀ (s : State) (r : Fault), s.inv → step s ≠ .fault r

/-- The only refusals: a ready Engine is given an instruction the spec excludes, a bundle naming register
14 or 15, or a LOAD or STORE with an IMMEDIATE or REGISTER address, on the port or as the instruction the
reference supply submits at PC. -/
def Obligations.OnlyExcludedInstructionsAreRefused : Prop :=
  ∀ (s : State) (r : Refusal), s.inv → step s = .refused r →
    s.ready
    ∧ ((∃ p rest, (s.inbox = .run p :: rest ∨ s.inbox = .start p :: rest)
          ∧ ((r = .registerIndexOutOfRange ∧ decodePort p = .error .registerIndex)
            ∨ (r = .addressOperandNotAdmitted ∧ ∃ i, decodePort p = .ok i ∧ i.wf = false)))
      ∨ (s.inbox = [] ∧ r = .addressOperandNotAdmitted ∧ ∃ i, supplyPC s.program s.regs.pc = some i ∧ i.wf = false))

/-- A step consumes the oldest input and never changes the program: the host's side of the state is
changed by no instruction. The form of the host's inputs is the model's own (log entry 1). -/
def Obligations.StepConsumesOneInput : Prop :=
  ∀ s t : State, step s = .next t → t.inbox = s.inbox.tail ∧ t.program = s.program

/-! ### Encodings -/

/-- The instruction port loses nothing: decoding the bundle that carries an instruction value gives it back,
for every instruction and every operand. The bundle is the spec's decision D1. -/
def Obligations.PortDecodesWhatItEncodes : Prop := ∀ i : Instr, decodePort (encodePort i) = .ok i

/-- A bundle decodes to an instruction exactly when it is valid and carries the opcode byte of the
instruction's type, its arity, and in the lane of each operand, in order, the operand's mode number (0
IMMEDIATE, 1 REGISTER, 2 DIRECT, 3 INDIRECT) and its literal or register index; R0 to R7, PC, SP, IR, MAR,
MDR, PSW are 0 to 13. The bundle is the spec's decision D1, the register indices its decision D2. -/
def Obligations.DecodedBundleCarriesItsInstruction : Prop :=
  (∀ (p : Port) (i : Instr),
    (decodePort p = .ok i ↔
      p.valid = true ∧ p.type = i.type.opcode ∧ p.nops.toNat = i.type.arity
      ∧ ∀ (k : Nat) (l : OperandLane) (o : Operand), [p.op0, p.op1, p.op2][k]? = some l →
          i.operands[k]? = some o → l.Carries o)
    ∧ (decodePort p = .ok i →
        ([p.op0, p.op1, p.op2].take i.type.arity).map OperandLane.operand = i.operands.map some))
  ∧ [Reg.r0, .r1, .r2, .r3, .r4, .r5, .r6, .r7, .pc, .sp, .ir, .mar, .mdr, .psw].map Reg.index
      = [0, 1, 2, 3, 4, 5, 6, 7, 8, 9, 10, 11, 12, 13]

/-- R101: the opcode byte of the display word, for each of the twelve types; it alone selects the type, and
the bits the format of the type always leaves 0 are 0. -/
def Obligations.OpcodeByteOfEachType : Prop :=
  ∀ i : Instr,
    wordType (encode i) = some i.type
    ∧ (i.type.arity = 0 → (encode i).toNat % 2 ^ 24 = 0) ∧ (i.type.arity = 1 → (encode i).toNat % 2 ^ 16 = 0)
    ∧ (encode i).toNat % 2 ^ 8 = 0
    ∧ (encode i).toNat / 2 ^ 24 =
    match i.type with
    | .load => 0x01
    | .store => 0x02
    | .add => 0x10
    | .sub => 0x11
    | .mul => 0x12
    | .div => 0x13
    | .mov => 0x20
    | .cmp => 0x21
    | .jmp => 0x30
    | .jz => 0x31
    | .jnz => 0x32
    | .nop => 0x00

/-- The operand bytes of the display word: the first operand's in bits 23:16, the second's in bits 15:8
(the spec's decision D18), a register as its index, an INDIRECT register with 0x80 set, a literal as its
low 8 bits; the bytes a format has no operand for, and bits 7:0, are 0. -/
def Obligations.OperandBytesOfTheDisplayWord : Prop :=
  (∀ i : Instr, (encode i).toNat % 2 ^ 8 = 0
    ∧ (encode i).toNat / 2 ^ 16 % 2 ^ 8 = ((i.operands.map fun o => o.byte.toNat)[0]?).getD 0
    ∧ (encode i).toNat / 2 ^ 8 % 2 ^ 8 = ((i.operands.map fun o => o.byte.toNat)[1]?).getD 0)
  ∧ (∀ r : Reg, (Operand.reg r).byte.toNat = r.index ∧ (Operand.ind r).byte.toNat = 0x80 + r.index)
  ∧ ∀ v : Word, (Operand.imm v).byte.toNat = v.toNat % 2 ^ 8 ∧ (Operand.dir v).byte.toNat = v.toNat % 2 ^ 8

/-- The display word cannot be decoded back to its instruction: no function recovers the instruction from
the word, not even among the well-formed instructions of one type with register operands. -/
def Obligations.DisplayWordIsLossy : Prop :=
  ∀ y ∈ [InstrType.add, .sub, .mul, .div],
    ¬ ∃ f : Word → Instr, ∀ a b c : Reg, ∀ i, y.build [.reg a, .reg b, .reg c] = some i → f (encode i) = i

/-- Every display word of a well-formed instruction has a representative: a well-formed instruction of the
same type with the same word. Which one is the model's choice (log entry 2). -/
def Obligations.RepresentativeHasTheSameWord : Prop :=
  ∀ i : Instr, i.wf = true →
    ∃ j : Instr, decodeTableWord 32 (encode i).toNat = some j ∧ encode j = encode i ∧ j.type = i.type ∧ j.wf = true

/-- A few words, read off the spec's worked encodings: their instructions encode to them, and the table
reader gives an instruction of the right type (which operands it names is the model's choice, log
entry 2). -/
def Obligations.WorkedEncodings : Prop :=
  encode (.add (.reg .r0) (.reg .r1) (.reg .r2)) = 0x10000100 ∧ encode (.mov (.reg .r1) (.imm 10)) = 0x20010A00
  ∧ encode (.store (.reg .r1) (.dir 1000)) = 0x0201E800 ∧ encode (.load (.reg .r2) (.ind .r1)) = 0x01028100
  ∧ encode (.jz (.imm 20)) = 0x31140000 ∧ encode (.cmp (.reg .r1) (.reg .r2)) = 0x21010200
  ∧ decodeTableWord 32 0x01028100 = some (.load (.reg .r2) (.ind .r1))
  ∧ decodeTableWord 32 0x21010200 = some (.cmp (.reg .r1) (.reg .r2))
  ∧ decodeTableWord 32 0x03000000 = none ∧ decodeTableWord 32 0x00000001 = none

/-! ### The Parser -/

/-- Parsing what `formatInstruction` renders gives the same parsed instruction: type, operands, display
strings and optional encoding. The separators it writes are the model's choice (log entry 3). -/
def Obligations.FormatThenParseRoundTrip : Prop :=
  ∀ (text : List Char) (p : Parsed), parse text = .ok p → parse (formatInstruction p) = .ok p

/-- The operand count decides: among texts with a known mnemonic and well-formed operand tokens, `parse`
fails exactly when the count differs from the arity, and then with that error; otherwise it yields the
instruction of that type with those operands, in order, and their original tokens as display strings; the
optional encoding is none or the Encoder's word (which, is a free value: log entry 23). -/
def Obligations.ParseFailsExactlyOnWrongCount : Prop :=
  ∀ (text m : List Char) (ts : List (List Char)) (y : InstrType) (os : List Operand),
    tokenise [] text = m :: ts → typeOfName (upper m) = some y → classifyAll ts = .ok os →
    (os.length ≠ y.arity → parse text = .error .operandCount)
    ∧ (os.length = y.arity →
        ∃ p : Parsed, parse text = .ok p ∧ p.instr.type = y ∧ p.instr.operands = os
          ∧ p.mnemonic = mnemonicOf y ∧ p.displays = ts
          ∧ (p.encoding = none ∨ p.encoding = some (encode p.instr)))

/-- The language is case-insensitive: the same text in upper case parses to the same instruction, or fails
with the same error. -/
def Obligations.ParseIgnoresCase : Prop :=
  ∀ text : List Char,
    (∀ p, parse text = .ok p → ∃ q, parse (upper text) = .ok q ∧ q.instr = p.instr)
    ∧ ∀ e, parse text = .error e → parse (upper text) = .error e

/-- Every operand has a spelling the Parser reads back as that operand: a register by its name, an INDIRECT
operand by its name in brackets, literals in decimal; so every operand of every instruction can be
written in the assembly language. -/
def Obligations.EveryOperandHasASpelling : Prop :=
  (∀ r : Reg, classify (registerName r) = .ok (.reg r) ∧ classify ('[' :: registerName r ++ [']']) = .ok (.ind r))
  ∧ ∀ v : Word, ∃ digits : List Char, digits ≠ [] ∧ (∀ c ∈ digits, c.isDigit = true)
    ∧ classify digits = .ok (.dir v) ∧ classify ('#' :: digits) = .ok (.imm v)

/-! ### The rows of the opcode table -/

/-- The rows of the opcode table are the Encoder's image: a word has the opcode byte of a type and zeros where
its format has nothing exactly when it is the word of some well-formed instruction of this type. So every
other word is produced by nothing. -/
def Obligations.TableRowsAreTheEncodersImage : Prop :=
  ∀ (w : Word) (t : InstrType), tableRow w = some t ↔ ∃ i : Instr, i.wf = true ∧ i.type = t ∧ encode i = w
end

