-- ==== Sys2Proof/Laws/Flags.lean ====
section
/-! SUPPORT. The integer laws and the flags in the forms proofs use (R10, R172 to R176, R210, R218). -/

namespace Sys2Proof.Machine

/-- The signed reading is the one R10 writes out. -/
theorem s32_eq_signedValue (w : Word) : s32 w = signedValue w := by
  simp only [signedValue, s32, BitVec.toInt]
  split <;> split <;> omega

/-- `mask32` is the non-negative remainder modulo 2^32. -/
theorem mask32_isMask32 (n : Int) : IsMask32 (mask32 n) n := by
  simp only [IsMask32, mask32, BitVec.toNat_ofInt]
  omega

theorem addWords_eq (a b : Word) : addWords a b = a + b := by
  apply BitVec.eq_of_toNat_eq
  have h := mask32_isMask32 ((a.toNat : Int) + (b.toNat : Int))
  simp only [IsMask32] at h
  simp only [addWords, BitVec.toNat_add]
  omega

theorem subWords_eq (a b : Word) : subWords a b = a - b := by
  apply BitVec.eq_of_toNat_eq
  have h := mask32_isMask32 ((a.toNat : Int) - (b.toNat : Int))
  simp only [IsMask32] at h
  simp only [subWords, BitVec.toNat_sub]
  omega

theorem mulWords_eq (a b : Word) : mulWords a b = a * b := by
  apply BitVec.eq_of_toNat_eq
  have h := mask32_isMask32 ((a.toNat : Int) * (b.toNat : Int))
  simp only [IsMask32] at h
  simp only [mulWords, BitVec.toNat_mul]
  have e : ((a.toNat : Int) * (b.toNat : Int)) = ((a.toNat * b.toNat : Nat) : Int) := by push_cast; rfl
  rw [e] at h
  rw [e]
  omega

/-- The three outcomes of a comparison (R210). -/
theorem compareFlags_eq (reading : ValueReading) (a b : Word) :
    compareFlags reading a b =
      if readAs reading a = readAs reading b then zeroBit
      else if readAs reading a < readAs reading b then negativeBit
      else 0 := by
  unfold compareFlags
  rcases lt_trichotomy (readAs reading a) (readAs reading b) with h | h | h
  · simp only [if_neg (show ¬ readAs reading a - readAs reading b = 0 by omega),
      if_pos (show readAs reading a - readAs reading b < 0 by omega), if_neg h.ne, if_pos h]
    rfl
  · simp only [if_pos (show readAs reading a - readAs reading b = 0 by omega),
      if_neg (show ¬ readAs reading a - readAs reading b < 0 by omega), if_pos h]
    rfl
  · simp only [if_neg (show ¬ readAs reading a - readAs reading b = 0 by omega),
      if_neg (show ¬ readAs reading a - readAs reading b < 0 by omega), if_neg h.ne', if_neg h.not_gt]
    rfl

/-- The Zero flag is the bit of weight 64. -/
theorem zeroFlag_eq (psw : Word) : zeroFlag psw = decide (psw.toNat / 64 % 2 = 1) := by
  simp [zeroFlag, BitVec.getLsbD, Nat.testBit_eq_decide_div_mod_eq]

/-- After a CMP the Zero flag says whether the values were equal (R218). -/
theorem zeroFlag_compareFlags (reading : ValueReading) (a b : Word) :
    zeroFlag (compareFlags reading a b) = decide (readAs reading a = readAs reading b) := by
  rw [compareFlags_eq]
  split
  · next h => simp only [h, decide_true]; decide
  · next h =>
    simp only [h, decide_false]
    split <;> decide

end Sys2Proof.Machine
end

