-- ==== Sys2Proof/Laws/State.lean ====
section
/-! SUPPORT. What each named update leaves in each field of the state, one equation a field, so that no
proof unfolds a record update. -/

namespace Sys2Proof.Machine

/-! ### `State.setReg` -/

@[simp] theorem State.setReg_regs (s : State) (r : Reg) (v : Word) : (s.setReg r v).regs = s.regs.set r v := rfl
@[simp] theorem State.setReg_mem (s : State) (r : Reg) (v : Word) : (s.setReg r v).mem = s.mem := rfl
@[simp] theorem State.setReg_phase (s : State) (r : Reg) (v : Word) : (s.setReg r v).phase = s.phase := rfl
@[simp] theorem State.setReg_cur (s : State) (r : Reg) (v : Word) : (s.setReg r v).cur = s.cur := rfl
@[simp] theorem State.setReg_running (s : State) (r : Reg) (v : Word) : (s.setReg r v).running = s.running := rfl
@[simp] theorem State.setReg_stepIndex (s : State) (r : Reg) (v : Word) : (s.setReg r v).stepIndex = s.stepIndex := rfl
@[simp] theorem State.setReg_fault (s : State) (r : Reg) (v : Word) : (s.setReg r v).fault = s.fault := rfl
@[simp] theorem State.setReg_signals (s : State) (r : Reg) (v : Word) : (s.setReg r v).signals = s.signals := rfl
@[simp] theorem State.setReg_active (s : State) (r : Reg) (v : Word) : (s.setReg r v).active = s.active := rfl
@[simp] theorem State.setReg_inbox (s : State) (r : Reg) (v : Word) : (s.setReg r v).inbox = s.inbox := rfl
@[simp] theorem State.setReg_program (s : State) (r : Reg) (v : Word) : (s.setReg r v).program = s.program := rfl

/-! ### `State.memWrite` -/

@[simp] theorem State.memWrite_regs (s : State) (a v : Word) : (s.memWrite a v).regs = s.regs := rfl
@[simp] theorem State.memWrite_mem (s : State) (a v : Word) : (s.memWrite a v).mem = s.mem.write a v := rfl
@[simp] theorem State.memWrite_phase (s : State) (a v : Word) : (s.memWrite a v).phase = s.phase := rfl
@[simp] theorem State.memWrite_cur (s : State) (a v : Word) : (s.memWrite a v).cur = s.cur := rfl
@[simp] theorem State.memWrite_running (s : State) (a v : Word) : (s.memWrite a v).running = s.running := rfl
@[simp] theorem State.memWrite_stepIndex (s : State) (a v : Word) : (s.memWrite a v).stepIndex = s.stepIndex := rfl
@[simp] theorem State.memWrite_fault (s : State) (a v : Word) : (s.memWrite a v).fault = s.fault := rfl
@[simp] theorem State.memWrite_signals (s : State) (a v : Word) : (s.memWrite a v).signals = s.signals := rfl
@[simp] theorem State.memWrite_active (s : State) (a v : Word) : (s.memWrite a v).active = s.active := rfl
@[simp] theorem State.memWrite_inbox (s : State) (a v : Word) : (s.memWrite a v).inbox = s.inbox := rfl
@[simp] theorem State.memWrite_program (s : State) (a v : Word) : (s.memWrite a v).program = s.program := rfl

/-! ### `State.raisePreconditionFault` -/

@[simp] theorem State.raisePreconditionFault_regs (s : State) (c : PreconditionCause) : (s.raisePreconditionFault c).regs = s.regs := rfl
@[simp] theorem State.raisePreconditionFault_mem (s : State) (c : PreconditionCause) : (s.raisePreconditionFault c).mem = s.mem := rfl
@[simp] theorem State.raisePreconditionFault_phase (s : State) (c : PreconditionCause) : (s.raisePreconditionFault c).phase = s.phase := rfl
@[simp] theorem State.raisePreconditionFault_cur (s : State) (c : PreconditionCause) : (s.raisePreconditionFault c).cur = s.cur := rfl
@[simp] theorem State.raisePreconditionFault_running (s : State) (c : PreconditionCause) : (s.raisePreconditionFault c).running = s.running := rfl
@[simp] theorem State.raisePreconditionFault_stepIndex (s : State) (c : PreconditionCause) : (s.raisePreconditionFault c).stepIndex = s.stepIndex := rfl
@[simp] theorem State.raisePreconditionFault_fault (s : State) (c : PreconditionCause) : (s.raisePreconditionFault c).fault = some c := rfl
@[simp] theorem State.raisePreconditionFault_signals (s : State) (c : PreconditionCause) : (s.raisePreconditionFault c).signals = s.signals := rfl
@[simp] theorem State.raisePreconditionFault_active (s : State) (c : PreconditionCause) : (s.raisePreconditionFault c).active = s.active := rfl
@[simp] theorem State.raisePreconditionFault_inbox (s : State) (c : PreconditionCause) : (s.raisePreconditionFault c).inbox = s.inbox := rfl
@[simp] theorem State.raisePreconditionFault_program (s : State) (c : PreconditionCause) : (s.raisePreconditionFault c).program = s.program := rfl

/-! ### `State.resetEngine` -/

@[simp] theorem State.resetEngine_regs (s : State) : (s.resetEngine).regs = Regs.reset := rfl
@[simp] theorem State.resetEngine_mem (s : State) : (s.resetEngine).mem = Memory.empty := rfl
@[simp] theorem State.resetEngine_phase (s : State) : (s.resetEngine).phase = .fetch := rfl
@[simp] theorem State.resetEngine_cur (s : State) : (s.resetEngine).cur = none := rfl
@[simp] theorem State.resetEngine_running (s : State) : (s.resetEngine).running = false := rfl
@[simp] theorem State.resetEngine_stepIndex (s : State) : (s.resetEngine).stepIndex = 0 := rfl
@[simp] theorem State.resetEngine_fault (s : State) : (s.resetEngine).fault = none := rfl
@[simp] theorem State.resetEngine_signals (s : State) : (s.resetEngine).signals = ControlSignals.idle := rfl
@[simp] theorem State.resetEngine_active (s : State) : (s.resetEngine).active = Components.none := rfl
@[simp] theorem State.resetEngine_inbox (s : State) : (s.resetEngine).inbox = s.inbox := rfl
@[simp] theorem State.resetEngine_program (s : State) : (s.resetEngine).program = s.program := rfl

/-! ### `State.presenting` -/

@[simp] theorem State.presenting_regs (s : State) (p : Port) : (s.presenting p).regs = s.regs := rfl
@[simp] theorem State.presenting_mem (s : State) (p : Port) : (s.presenting p).mem = s.mem := rfl
@[simp] theorem State.presenting_phase (s : State) (p : Port) : (s.presenting p).phase = s.phase := rfl
@[simp] theorem State.presenting_cur (s : State) (p : Port) : (s.presenting p).cur = s.cur := rfl
@[simp] theorem State.presenting_running (s : State) (p : Port) : (s.presenting p).running = false := rfl
@[simp] theorem State.presenting_stepIndex (s : State) (p : Port) : (s.presenting p).stepIndex = s.stepIndex := rfl
@[simp] theorem State.presenting_fault (s : State) (p : Port) : (s.presenting p).fault = none := rfl
@[simp] theorem State.presenting_signals (s : State) (p : Port) : (s.presenting p).signals = s.signals := rfl
@[simp] theorem State.presenting_active (s : State) (p : Port) : (s.presenting p).active = s.active := rfl
@[simp] theorem State.presenting_inbox (s : State) (p : Port) : (s.presenting p).inbox = [.run p] := rfl
@[simp] theorem State.presenting_program (s : State) (p : Port) : (s.presenting p).program = s.program := rfl

/-! ### `State.fetched` -/

@[simp] theorem State.fetched_regs (s : State) : (s.fetched).regs = { s.regs with mar := s.regs.pc, ir := s.mem.read s.regs.pc, pc := s.regs.pc + 4 } := rfl
@[simp] theorem State.fetched_mem (s : State) : (s.fetched).mem = s.mem := rfl
@[simp] theorem State.fetched_phase (s : State) : (s.fetched).phase = s.phase := rfl
@[simp] theorem State.fetched_cur (s : State) : (s.fetched).cur = s.cur := rfl
@[simp] theorem State.fetched_running (s : State) : (s.fetched).running = s.running := rfl
@[simp] theorem State.fetched_stepIndex (s : State) : (s.fetched).stepIndex = s.stepIndex := rfl
@[simp] theorem State.fetched_fault (s : State) : (s.fetched).fault = s.fault := rfl
@[simp] theorem State.fetched_signals (s : State) : (s.fetched).signals = s.signals := rfl
@[simp] theorem State.fetched_active (s : State) : (s.fetched).active = s.active := rfl
@[simp] theorem State.fetched_inbox (s : State) : (s.fetched).inbox = s.inbox := rfl
@[simp] theorem State.fetched_program (s : State) : (s.fetched).program = s.program := rfl

/-! ### `enterRun` -/

@[simp] theorem enterRun_regs (i : Instr) (s : State) : (enterRun i s).regs = s.regs := rfl
@[simp] theorem enterRun_mem (i : Instr) (s : State) : (enterRun i s).mem = s.mem := rfl
@[simp] theorem enterRun_phase (i : Instr) (s : State) : (enterRun i s).phase = s.phase := rfl
@[simp] theorem enterRun_cur (i : Instr) (s : State) : (enterRun i s).cur = some i := rfl
@[simp] theorem enterRun_running (i : Instr) (s : State) : (enterRun i s).running = true := rfl
@[simp] theorem enterRun_stepIndex (i : Instr) (s : State) : (enterRun i s).stepIndex = 0 := rfl
@[simp] theorem enterRun_fault (i : Instr) (s : State) : (enterRun i s).fault = s.fault := rfl
@[simp] theorem enterRun_signals (i : Instr) (s : State) : (enterRun i s).signals = ControlSignals.idle := rfl
@[simp] theorem enterRun_active (i : Instr) (s : State) : (enterRun i s).active = s.active := rfl
@[simp] theorem enterRun_inbox (i : Instr) (s : State) : (enterRun i s).inbox = s.inbox := rfl
@[simp] theorem enterRun_program (i : Instr) (s : State) : (enterRun i s).program = s.program := rfl

/-! ### `beginPhase` -/

@[simp] theorem beginPhase_regs (p : Phase) (c : Components) (s : State) : (beginPhase p c s).regs = s.regs := rfl
@[simp] theorem beginPhase_mem (p : Phase) (c : Components) (s : State) : (beginPhase p c s).mem = s.mem := rfl
@[simp] theorem beginPhase_phase (p : Phase) (c : Components) (s : State) : (beginPhase p c s).phase = p := rfl
@[simp] theorem beginPhase_cur (p : Phase) (c : Components) (s : State) : (beginPhase p c s).cur = s.cur := rfl
@[simp] theorem beginPhase_running (p : Phase) (c : Components) (s : State) : (beginPhase p c s).running = s.running := rfl
@[simp] theorem beginPhase_stepIndex (p : Phase) (c : Components) (s : State) : (beginPhase p c s).stepIndex = p.number := rfl
@[simp] theorem beginPhase_fault (p : Phase) (c : Components) (s : State) : (beginPhase p c s).fault = s.fault := rfl
@[simp] theorem beginPhase_signals (p : Phase) (c : Components) (s : State) : (beginPhase p c s).signals = s.signals := rfl
@[simp] theorem beginPhase_active (p : Phase) (c : Components) (s : State) : (beginPhase p c s).active = c := rfl
@[simp] theorem beginPhase_inbox (p : Phase) (c : Components) (s : State) : (beginPhase p c s).inbox = s.inbox := rfl
@[simp] theorem beginPhase_program (p : Phase) (c : Components) (s : State) : (beginPhase p c s).program = s.program := rfl

/-! ### `deactAll` -/

@[simp] theorem deactAll_regs (s : State) : (deactAll s).regs = s.regs := rfl
@[simp] theorem deactAll_mem (s : State) : (deactAll s).mem = s.mem := rfl
@[simp] theorem deactAll_phase (s : State) : (deactAll s).phase = s.phase := rfl
@[simp] theorem deactAll_cur (s : State) : (deactAll s).cur = s.cur := rfl
@[simp] theorem deactAll_running (s : State) : (deactAll s).running = s.running := rfl
@[simp] theorem deactAll_stepIndex (s : State) : (deactAll s).stepIndex = s.stepIndex := rfl
@[simp] theorem deactAll_fault (s : State) : (deactAll s).fault = s.fault := rfl
@[simp] theorem deactAll_signals (s : State) : (deactAll s).signals = s.signals := rfl
@[simp] theorem deactAll_active (s : State) : (deactAll s).active = Components.none := rfl
@[simp] theorem deactAll_inbox (s : State) : (deactAll s).inbox = s.inbox := rfl
@[simp] theorem deactAll_program (s : State) : (deactAll s).program = s.program := rfl

/-! ### `exitRun` -/

@[simp] theorem exitRun_regs (s : State) : (exitRun s).regs = s.regs := rfl
@[simp] theorem exitRun_mem (s : State) : (exitRun s).mem = s.mem := rfl
@[simp] theorem exitRun_phase (s : State) : (exitRun s).phase = s.phase := rfl
@[simp] theorem exitRun_cur (s : State) : (exitRun s).cur = s.cur := rfl
@[simp] theorem exitRun_running (s : State) : (exitRun s).running = false := rfl
@[simp] theorem exitRun_stepIndex (s : State) : (exitRun s).stepIndex = s.stepIndex := rfl
@[simp] theorem exitRun_fault (s : State) : (exitRun s).fault = s.fault := rfl
@[simp] theorem exitRun_signals (s : State) : (exitRun s).signals = ControlSignals.idle := rfl
@[simp] theorem exitRun_active (s : State) : (exitRun s).active = s.active := rfl
@[simp] theorem exitRun_inbox (s : State) : (exitRun s).inbox = s.inbox := rfl
@[simp] theorem exitRun_program (s : State) : (exitRun s).program = s.program := rfl

/-! ### Reset -/

@[simp] theorem State.reset_regs : State.reset.regs = Regs.reset := rfl
@[simp] theorem State.reset_mem : State.reset.mem = Memory.empty := rfl
@[simp] theorem State.reset_phase : State.reset.phase = .fetch := rfl
@[simp] theorem State.reset_cur : State.reset.cur = none := rfl
@[simp] theorem State.reset_running : State.reset.running = false := rfl
@[simp] theorem State.reset_stepIndex : State.reset.stepIndex = 0 := rfl
@[simp] theorem State.reset_fault : State.reset.fault = none := rfl
@[simp] theorem State.reset_signals : State.reset.signals = ControlSignals.idle := rfl
@[simp] theorem State.reset_active : State.reset.active = Components.none := rfl
@[simp] theorem State.reset_inbox : State.reset.inbox = [] := rfl
@[simp] theorem State.reset_program : State.reset.program = [] := rfl

/-! ### Reading the state through its parts -/

@[simp] theorem State.getReg_eq (s : State) (r : Reg) : s.getReg r = s.regs.get r := rfl

@[simp] theorem State.memRead_eq (s : State) (a : Word) : s.memRead a = s.mem.read a := rfl

/-- Two states with equal fields are equal. -/
theorem State.ext_fields {s t : State} (h1 : s.regs = t.regs) (h2 : s.mem = t.mem) (h3 : s.phase = t.phase)
    (h4 : s.cur = t.cur) (h5 : s.running = t.running) (h6 : s.stepIndex = t.stepIndex) (h7 : s.fault = t.fault)
    (h8 : s.signals = t.signals) (h9 : s.active = t.active) (h10 : s.inbox = t.inbox)
    (h11 : s.program = t.program) : s = t := by
  cases s; cases t; simp_all

end Sys2Proof.Machine
end

