-- ==== Sys2Proof/Laws/Memory.lean ====
section
/-! SUPPORT. The word store: what a read sees of a write, and that every operation keeps the canonical
form (R61, R62, R44). -/

namespace Sys2Proof.Machine

/-! ### Lists of cells -/

theorem readCells_writeCells_ne {a b : Nat} (v : Word) (h : b ≠ a) (l : List (Nat × Word)) :
    readCells b (writeCells a v l) = readCells b l := by
  induction l with
  | nil => simp only [writeCells]; split <;> simp [readCells, h]
  | cons c rest ih =>
    obtain ⟨k, w⟩ := c
    simp only [writeCells]
    split
    · split <;> simp [readCells, h]
    · split
      · next hak => subst hak; split <;> simp [readCells, h]
      · simp only [readCells, ih]

/-- An address below every listed one reads as unset. -/
theorem readCells_of_lt {a : Nat} {l : List (Nat × Word)} (h : ∀ c ∈ l, a < c.1) :
    readCells a l = Memory.unset := by
  induction l with
  | nil => rfl
  | cons c rest ih =>
    obtain ⟨k, w⟩ := c
    have hk : a < k := h (k, w) (by simp)
    simp only [readCells, if_neg (Nat.ne_of_lt hk)]
    exact ih fun d hd => h d (by simp [hd])

theorem readCells_writeCells_self (a : Nat) (v : Word) {l : List (Nat × Word)}
    (h : l.Pairwise (fun c d => c.1 < d.1)) : readCells a (writeCells a v l) = v := by
  induction l with
  | nil => simp only [writeCells]; split <;> simp_all [readCells]
  | cons c rest ih =>
    obtain ⟨k, w⟩ := c
    obtain ⟨hk, hrest⟩ := List.pairwise_cons.mp h
    simp only [writeCells]
    split
    · next hak =>
      split
      · next hv =>
        rw [hv]
        apply readCells_of_lt
        intro d hd
        rcases List.mem_cons.mp hd with rfl | hd
        · exact hak
        · exact Nat.lt_trans hak (hk d hd)
      · simp [readCells]
    · split
      · next hak =>
        subst hak
        split
        · next hv => rw [hv]; exact readCells_of_lt hk
        · simp [readCells]
      · next hak => simp only [readCells, if_neg hak]; exact ih hrest

/-- The members of a list of cells after a write: the cell written, if it is not unset, and members that
were there before. -/
theorem mem_writeCells {a : Nat} {v : Word} {l : List (Nat × Word)} {c : Nat × Word}
    (h : c ∈ writeCells a v l) : (c = (a, v) ∧ v ≠ Memory.unset) ∨ c ∈ l := by
  induction l with
  | nil => simp only [writeCells] at h; split at h <;> simp_all
  | cons d rest ih =>
    obtain ⟨k, w⟩ := d
    simp only [writeCells] at h
    split at h
    · split at h
      · exact .inr h
      · rcases List.mem_cons.mp h with rfl | h
        · exact .inl ⟨rfl, ‹_›⟩
        · exact .inr h
    · split at h
      · split at h
        · exact .inr (List.mem_cons_of_mem _ h)
        · rcases List.mem_cons.mp h with rfl | h
          · exact .inl ⟨rfl, ‹_›⟩
          · exact .inr (List.mem_cons_of_mem _ h)
      · rcases List.mem_cons.mp h with rfl | h
        · exact .inr (by simp)
        · rcases ih h with h | h
          · exact .inl h
          · exact .inr (List.mem_cons_of_mem _ h)

theorem writeCells_rising (a : Nat) (v : Word) {l : List (Nat × Word)}
    (h : l.Pairwise (fun c d => c.1 < d.1)) : (writeCells a v l).Pairwise (fun c d => c.1 < d.1) := by
  induction l with
  | nil => simp only [writeCells]; split <;> simp
  | cons d rest ih =>
    obtain ⟨k, w⟩ := d
    obtain ⟨hk, hrest⟩ := List.pairwise_cons.mp h
    simp only [writeCells]
    split
    · next hak =>
      split
      · exact h
      · refine List.pairwise_cons.mpr ⟨fun d hd => ?_, h⟩
        rcases List.mem_cons.mp hd with rfl | hd
        · exact hak
        · exact Nat.lt_trans hak (hk d hd)
    · next hle =>
      split
      · next hak =>
        subst hak
        split
        · exact hrest
        · exact List.pairwise_cons.mpr ⟨hk, hrest⟩
      · next hne =>
        refine List.pairwise_cons.mpr ⟨fun d hd => ?_, ih hrest⟩
        rcases mem_writeCells hd with ⟨rfl, -⟩ | hd
        · exact Nat.lt_of_le_of_ne (Nat.le_of_not_lt hle) (Ne.symm hne)
        · exact hk d hd

/-! ### The key set -/

@[simp] theorem mem_addKey {a n : Nat} {l : List Nat} : n ∈ addKey a l ↔ n = a ∨ n ∈ l := by
  induction l with
  | nil => simp [addKey]
  | cons b rest ih =>
    simp only [addKey]
    split
    · simp
    · split
      · next h => subst h; simp
      · simp only [List.mem_cons, ih]; tauto

theorem addKey_rising (a : Nat) {l : List Nat} (h : l.Pairwise (fun b c => b < c)) :
    (addKey a l).Pairwise (fun b c => b < c) := by
  induction l with
  | nil => simp [addKey]
  | cons b rest ih =>
    obtain ⟨hb, hrest⟩ := List.pairwise_cons.mp h
    simp only [addKey]
    split
    · next hab =>
      refine List.pairwise_cons.mpr ⟨fun c hc => ?_, h⟩
      rcases List.mem_cons.mp hc with rfl | hc
      · exact hab
      · exact Nat.lt_trans hab (hb c hc)
    · split
      · exact h
      · next hle hne =>
        refine List.pairwise_cons.mpr ⟨fun c hc => ?_, ih hrest⟩
        rcases mem_addKey.mp hc with rfl | hc
        · exact Nat.lt_of_le_of_ne (Nat.le_of_not_lt hle) (Ne.symm hne)
        · exact hb c hc

/-! ### The canonical form -/

theorem Memory.empty_wf : Memory.empty.wf := by simp [Memory.empty, Memory.wf]

@[simp] theorem Memory.read_empty (a : Word) : Memory.empty.read a = 0 := rfl

/-- A write keeps the canonical form. -/
theorem Memory.write_wf {m : Memory} (h : m.wf) (a v : Word) : (m.write a v).wf := by
  obtain ⟨h1, h2, h3, h4⟩ := h
  refine ⟨writeCells_rising _ _ h1, fun c hc => ?_, addKey_rising _ h3, fun n hn => ?_⟩
  · rcases mem_writeCells hc with ⟨rfl, hv⟩ | hc
    · exact ⟨hv, mem_addKey.mpr (.inl rfl)⟩
    · exact ⟨(h2 c hc).1, mem_addKey.mpr (.inr (h2 c hc).2)⟩
  · rcases mem_addKey.mp hn with rfl | hn
    · exact a.isLt
    · exact h4 n hn

/-- An address outside the key set reads as unset. -/
theorem Memory.read_of_not_written {m : Memory} (h : m.wf) {a : Word} (ha : a.toNat ∉ m.written) :
    m.read a = Memory.unset := by
  obtain ⟨-, h2, -, -⟩ := h
  rw [Memory.read]
  have key : ∀ l : List (Nat × Word), (∀ c ∈ l, c.1 ∈ m.written) → readCells a.toNat l = Memory.unset := by
    intro l
    induction l with
    | nil => intro _; rfl
    | cons c rest ih =>
      obtain ⟨k, w⟩ := c
      intro hl
      have hk : a.toNat ≠ k := fun e => ha (e ▸ hl (k, w) (by simp))
      simp only [readCells, if_neg hk]
      exact ih fun d hd => hl d (by simp [hd])
  exact key _ fun c hc => (h2 c hc).2

/-- What a write does to memory, once and for all. -/
theorem Memory.write_storedAt {m : Memory} (h : m.wf) (a v : Word) : StoredAt a v m (m.write a v) :=
  ⟨readCells_writeCells_self _ _ h.1,
    fun _ hb => readCells_writeCells_ne _ (fun e => hb (BitVec.eq_of_toNat_eq e)) _, fun _ => mem_addKey⟩

/-- A write stores at its address and nowhere else, from any list of cells. -/
theorem Memory.write_storedOnlyAt (m : Memory) (a v : Word) : StoredOnlyAt (some a) m (m.write a v) :=
  ⟨fun _ => mem_addKey, fun _ hb => readCells_writeCells_ne _ (fun e => hb (BitVec.eq_of_toNat_eq e)) _⟩

end Sys2Proof.Machine
end

