-- ==== Sys2Proof/Laws/Registers.lean ====
section
/-! SUPPORT. Reading and writing the register file (R11, R20). -/

namespace Sys2Proof.Machine

@[simp] theorem Regs.get_set_self (x : Regs) (r : Reg) (v : Word) : (x.set r v).get r = v := by
  cases r <;> rfl

theorem Regs.get_set_ne (x : Regs) {q r : Reg} (v : Word) (h : q ≠ r) : (x.set r v).get q = x.get q := by
  cases r <;> cases q <;> first | rfl | exact absurd rfl h

/-- Everything a register read can see of a register write. -/
theorem Regs.get_set (x : Regs) (q r : Reg) (v : Word) : (x.set r v).get q = if q = r then v else x.get q := by
  split
  · next h => rw [h, Regs.get_set_self]
  · next h => exact Regs.get_set_ne x v h

/-- Register files that read alike are equal. -/
theorem Regs.ext_get {x y : Regs} (h : ∀ r, x.get r = y.get r) : x = y := by
  have h0 := h .r0; have h1 := h .r1; have h2 := h .r2; have h3 := h .r3
  have h4 := h .r4; have h5 := h .r5; have h6 := h .r6; have h7 := h .r7
  have h8 := h .pc; have h9 := h .sp; have h10 := h .ir; have h11 := h .mar
  have h12 := h .mdr; have h13 := h .psw
  cases x; cases y
  simp only [Regs.get] at *
  simp_all

/-- Writes to different registers commute. -/
theorem Regs.set_comm (x : Regs) {q r : Reg} (v w : Word) (h : q ≠ r) :
    (x.set q v).set r w = (x.set r w).set q v := by
  apply Regs.ext_get
  intro p
  simp only [Regs.get_set]
  split <;> split <;> simp_all

@[simp] theorem Regs.set_get_self (x : Regs) (r : Reg) : x.set r (x.get r) = x := by
  cases r <;> rfl

@[simp] theorem Regs.get_pc (x : Regs) : x.get .pc = x.pc := rfl
@[simp] theorem Regs.get_sp (x : Regs) : x.get .sp = x.sp := rfl
@[simp] theorem Regs.get_ir (x : Regs) : x.get .ir = x.ir := rfl
@[simp] theorem Regs.get_mar (x : Regs) : x.get .mar = x.mar := rfl
@[simp] theorem Regs.get_mdr (x : Regs) : x.get .mdr = x.mdr := rfl
@[simp] theorem Regs.get_psw (x : Regs) : x.get .psw = x.psw := rfl
@[simp] theorem Regs.set_pc (x : Regs) (v : Word) : x.set .pc v = { x with pc := v } := rfl
@[simp] theorem Regs.set_ir (x : Regs) (v : Word) : x.set .ir v = { x with ir := v } := rfl
@[simp] theorem Regs.set_mar (x : Regs) (v : Word) : x.set .mar v = { x with mar := v } := rfl
@[simp] theorem Regs.set_mdr (x : Regs) (v : Word) : x.set .mdr v = { x with mdr := v } := rfl
@[simp] theorem Regs.set_psw (x : Regs) (v : Word) : x.set .psw v = { x with psw := v } := rfl

/-- FETCH's three register writes are the registers `State.fetched` shows. -/
@[simp] theorem fetchRegs_regs (s : State) : (fetchRegs s).regs = s.fetched.regs := rfl

@[simp] theorem fetchRegs_mem (s : State) : (fetchRegs s).mem = s.mem := rfl

end Sys2Proof.Machine
end

