-- ==== Sys2Proof/Laws/Operands.lean ====
section
/-! SUPPORT. What the operand operations read and write, and what they leave alone (R150 to R152, R211). -/

namespace Sys2Proof.Machine

/-- An operand read sees registers and memory only. -/
theorem readOperand_congr {s t : State} (hr : s.regs = t.regs) (hm : s.mem = t.mem) (op : Operand) :
    readOperand op s = readOperand op t := by
  cases op <;> simp [readOperand, hr, hm]

theorem effAddr_congr {s t : State} (hr : s.regs = t.regs) (op : Operand) : effAddr op s = effAddr op t := by
  cases op <;> simp [effAddr, hr]

theorem jumpTarget_congr {s t : State} (hr : s.regs = t.regs) (hm : s.mem = t.mem) (mode : JumpTargetMode)
    (op : Operand) : jumpTarget mode op s = jumpTarget mode op t := by
  cases mode <;> cases op <;> simp [jumpTarget, readOperand, hr, hm]

/-- An address operand has an effective address, and no other operand has one. -/
theorem effAddr_isSome (op : Operand) (s : State) : (effAddr op s).isSome = op.isAddress := by
  cases op <;> rfl

/-- A destination write changes registers and memory only. -/
theorem writeOperand_frame (dst : Operand) (v : Word) (s : State) :
    writeOperand dst v s = { s with regs := (writeOperand dst v s).regs, mem := (writeOperand dst v s).mem } := by
  cases dst <;> rfl

/-- A destination write puts its word where the operand says and nowhere else. -/
theorem writeOperand_receives {s : State} (h : s.mem.wf) (dst : Operand) (v : Word) :
    Receives dst v s.regs s.mem (writeOperand dst v s) := by
  cases dst with
  | imm _ => exact ⟨rfl, rfl⟩
  | reg r => exact ⟨Regs.get_set_self _ _ _, fun _ hq => Regs.get_set_ne _ _ hq, rfl⟩
  | dir a => exact ⟨rfl, Memory.write_storedAt h _ _⟩
  | ind r => exact ⟨rfl, Memory.write_storedAt h _ _⟩

/-- A destination write keeps the canonical form of memory. -/
theorem writeOperand_wf {s : State} (h : s.mem.wf) (dst : Operand) (v : Word) : (writeOperand dst v s).mem.wf := by
  cases dst with
  | imm _ => exact h
  | reg _ => exact h
  | dir _ => exact Memory.write_wf h _ _
  | ind _ => exact Memory.write_wf h _ _

/-- A destination write stores at the address of a DIRECT or INDIRECT destination and nowhere else. -/
theorem writeOperand_storedOnlyAt (dst : Operand) (v : Word) (s : State) :
    StoredOnlyAt (effAddr dst s) s.mem (writeOperand dst v s).mem := by
  cases dst with
  | imm _ => exact rfl
  | reg _ => exact rfl
  | dir a => exact Memory.write_storedOnlyAt _ _ _
  | ind r => exact Memory.write_storedOnlyAt _ _ _

/-- Only registers and memory of a state decide whether it received a word. -/
theorem Receives_congr {t u : State} (hr : u.regs = t.regs) (hm : u.mem = t.mem) {dst : Operand} {v : Word}
    {x : Regs} {m : Memory} (h : Receives dst v x m t) : Receives dst v x m u := by
  cases dst <;> simpa only [Receives, hr, hm] using h

end Sys2Proof.Machine
end

