-- ==== Sys2Proof/Laws/PerInstr.lean ====
section
/-! SUPPORT. Statements made per instruction. RebuildsFromOperands: the type and the operand sequence of an
instruction value are all of it, and the sequence has the arity of the type (R90, R92). -/

namespace Sys2Proof.Laws.RebuildsFromOperands

/-- The operands are as many as the arity, and the type and the operands give the instruction back. -/
def Statement (i : Instr) : Prop := i.operands.length = i.type.arity ∧ i.type.build i.operands = some i

theorem nop : Statement .nop := ⟨rfl, rfl⟩
theorem load (dst addr : Operand) : Statement (.load dst addr) := ⟨rfl, rfl⟩
theorem store (src addr : Operand) : Statement (.store src addr) := ⟨rfl, rfl⟩
theorem add (dst src1 src2 : Operand) : Statement (.add dst src1 src2) := ⟨rfl, rfl⟩
theorem sub (dst src1 src2 : Operand) : Statement (.sub dst src1 src2) := ⟨rfl, rfl⟩
theorem mul (dst src1 src2 : Operand) : Statement (.mul dst src1 src2) := ⟨rfl, rfl⟩
theorem div (dst src1 src2 : Operand) : Statement (.div dst src1 src2) := ⟨rfl, rfl⟩
theorem mov (dst src : Operand) : Statement (.mov dst src) := ⟨rfl, rfl⟩
theorem cmp (left right : Operand) : Statement (.cmp left right) := ⟨rfl, rfl⟩
theorem jmp (target : Operand) : Statement (.jmp target) := ⟨rfl, rfl⟩
theorem jz (target : Operand) : Statement (.jz target) := ⟨rfl, rfl⟩
theorem jnz (target : Operand) : Statement (.jnz target) := ⟨rfl, rfl⟩

end Sys2Proof.Laws.RebuildsFromOperands
end

