-- ==== Sys2Proof/Laws/Run.lean ====
section
/-! SUPPORT. The run of an instruction: what it comes to, said once for all twelve types. -/

namespace Sys2Proof.Machine

/-- An EXECUTE operation acts on registers and memory alone: it reads nothing else and changes nothing
else. -/
def ActsOnData (op : State → State) : Prop :=
  ∀ s t : State, s.regs = t.regs → s.mem = t.mem →
    (op s).regs = (op t).regs ∧ (op s).mem = (op t).mem
      ∧ op s = { s with regs := (op s).regs, mem := (op s).mem }

/-- The same for a MEMORY operation, which may have no address. -/
def ActsOnDataIfAny (op : State → Option State) : Prop :=
  ∀ s t : State, s.regs = t.regs → s.mem = t.mem →
    (op s).map (fun u => (u.regs, u.mem)) = (op t).map (fun u => (u.regs, u.mem))
      ∧ ∀ u, op s = some u → u = { s with regs := u.regs, mem := u.mem }

theorem noExecute_actsOnData : ActsOnData noExecute := fun _ _ hr hm => ⟨hr, hm, rfl⟩

theorem noMemory_actsOnData : ActsOnDataIfAny noMemory := by
  intro s t hr hm
  refine ⟨by simp [noMemory, hr, hm], fun u hu => ?_⟩
  obtain rfl : s = u := by simpa [noMemory] using hu
  rfl

/-- Writing a value that registers and memory decide. -/
theorem writeOperand_actsOnData (dst : Operand) (f : State → Word)
    (hf : ∀ s t : State, s.regs = t.regs → s.mem = t.mem → f s = f t) :
    ActsOnData fun s => writeOperand dst (f s) s := by
  intro s t hr hm
  have e := hf s t hr hm
  refine ⟨?_, ?_, writeOperand_frame dst (f s) s⟩ <;>
    (cases dst <;> simp [writeOperand, e, hr, hm])

theorem executeOp_actsOnData (cfg : Config) (i : Instr) : ActsOnData (executeOp cfg i) := by
  cases i with
  | nop => exact noExecute_actsOnData
  | load _ _ => exact noExecute_actsOnData
  | store _ _ => exact noExecute_actsOnData
  | add d a b =>
    exact writeOperand_actsOnData d _ fun s t hr hm => by
      rw [readOperand_congr hr hm a, readOperand_congr hr hm b]
  | sub d a b =>
    exact writeOperand_actsOnData d _ fun s t hr hm => by
      rw [readOperand_congr hr hm a, readOperand_congr hr hm b]
  | mul d a b =>
    exact writeOperand_actsOnData d _ fun s t hr hm => by
      rw [readOperand_congr hr hm a, readOperand_congr hr hm b]
  | div d a b =>
    intro s t hr hm
    have ea := readOperand_congr hr hm a
    have eb := readOperand_congr hr hm b
    simp only [executeOp, divOp, ea, eb]
    split
    · exact ⟨hr, hm, rfl⟩
    · exact writeOperand_actsOnData d (fun _ => divWords cfg.reading (readOperand a t) (readOperand b t))
        (fun _ _ _ _ => rfl) s t hr hm
  | mov d a => exact writeOperand_actsOnData d _ fun s t hr hm => readOperand_congr hr hm a
  | cmp a b =>
    exact writeOperand_actsOnData (.reg .psw) _ fun s t hr hm => by
      rw [readOperand_congr hr hm a, readOperand_congr hr hm b]
  | jmp g => exact writeOperand_actsOnData (.reg .pc) _ fun s t hr hm => jumpTarget_congr hr hm _ g
  | jz g =>
    intro s t hr hm
    have e := jumpTarget_congr hr hm cfg.jumpTargetMode g
    have ez : zeroFlag (s.regs.get .psw) = zeroFlag (t.regs.get .psw) := by rw [hr]
    cases hz : zeroFlag (t.regs.get .psw) <;>
      simp only [executeOp, jzOp, State.getReg_eq, ez, hz, e, if_true, if_false, Bool.false_eq_true] <;>
      exact ⟨by simp [hr], hm, by trivial⟩
  | jnz g =>
    intro s t hr hm
    have e := jumpTarget_congr hr hm cfg.jumpTargetMode g
    have ez : zeroFlag (s.regs.get .psw) = zeroFlag (t.regs.get .psw) := by rw [hr]
    cases hz : zeroFlag (t.regs.get .psw) <;>
      simp only [executeOp, jnzOp, State.getReg_eq, ez, hz, e, if_true, if_false, Bool.false_eq_true] <;>
      exact ⟨by simp [hr], hm, by trivial⟩

theorem loadOp_of_effAddr {addr : Operand} {s : State} {ea : Word} (h : effAddr addr s = some ea) (dst : Operand) :
    loadOp dst addr s
      = some (writeOperand dst (s.mem.read ea) ((s.setReg .mar ea).setReg .mdr (s.mem.read ea))) := by
  rw [loadOp, h]; rfl

theorem storeOp_of_effAddr {addr : Operand} {s : State} {ea : Word} (h : effAddr addr s = some ea) (src : Operand) :
    storeOp src addr s
      = some (((s.setReg .mar ea).setReg .mdr (readOperand src (s.setReg .mar ea))).memWrite ea
          (readOperand src (s.setReg .mar ea))) := by
  rw [storeOp, h]; rfl

theorem memoryOp_actsOnData (i : Instr) : ActsOnDataIfAny (memoryOp i) := by
  cases i with
  | load d a =>
    intro s t hr hm
    have ea : effAddr a s = effAddr a t := effAddr_congr hr a
    cases h : effAddr a t with
    | none =>
      have hs : loadOp d a s = none := by rw [loadOp, ea, h]; rfl
      have ht : loadOp d a t = none := by rw [loadOp, h]; rfl
      exact ⟨by simp [memoryOp, hs, ht], fun u hu => by simp [memoryOp, hs] at hu⟩
    | some x =>
      simp only [memoryOp, loadOp_of_effAddr (ea.trans h), loadOp_of_effAddr h]
      refine ⟨?_, fun u hu => ?_⟩
      · cases d <;> simp [writeOperand, hr, hm]
      · obtain rfl := Option.some.inj hu
        cases d <;> rfl
  | store v a =>
    intro s t hr hm
    have ea : effAddr a s = effAddr a t := effAddr_congr hr a
    cases h : effAddr a t with
    | none =>
      have hs : storeOp v a s = none := by rw [storeOp, ea, h]; rfl
      have ht : storeOp v a t = none := by rw [storeOp, h]; rfl
      exact ⟨by simp [memoryOp, hs, ht], fun u hu => by simp [memoryOp, hs] at hu⟩
    | some x =>
      simp only [memoryOp, storeOp_of_effAddr (ea.trans h), storeOp_of_effAddr h]
      have e : readOperand v (s.setReg .mar x) = readOperand v (t.setReg .mar x) :=
        readOperand_congr (by simp [hr]) (by simp [hm]) v
      refine ⟨?_, fun u hu => ?_⟩
      · simp [e, hr, hm]
      · obtain rfl := Option.some.inj hu
        rfl
  | nop => exact noMemory_actsOnData
  | add _ _ _ => exact noMemory_actsOnData
  | sub _ _ _ => exact noMemory_actsOnData
  | mul _ _ _ => exact noMemory_actsOnData
  | div _ _ _ => exact noMemory_actsOnData
  | mov _ _ => exact noMemory_actsOnData
  | cmp _ _ => exact noMemory_actsOnData
  | jmp _ => exact noMemory_actsOnData
  | jz _ => exact noMemory_actsOnData
  | jnz _ => exact noMemory_actsOnData

/-- The MEMORY operation has an answer exactly for a well-formed instruction. -/
theorem memoryOp_isSome (i : Instr) (s : State) : (memoryOp i s).isSome = i.wf := by
  cases i with
  | load d a => simp [memoryOp, loadOp, Instr.wf, effAddr_isSome]
  | store v a => simp [memoryOp, storeOp, Instr.wf, effAddr_isSome]
  | _ => rfl

/-- EXECUTE of every type stores where `executeStoresAt` says and nowhere else. -/
theorem executeOp_storedOnlyAt (cfg : Config) (i : Instr) (s : State) :
    StoredOnlyAt (executeStoresAt i s) s.mem (executeOp cfg i s).mem := by
  cases i with
  | add d a b => exact writeOperand_storedOnlyAt d _ s
  | sub d a b => exact writeOperand_storedOnlyAt d _ s
  | mul d a b => exact writeOperand_storedOnlyAt d _ s
  | mov d a => exact writeOperand_storedOnlyAt d _ s
  | div d a b =>
    simp only [executeStoresAt, executeOp, divOp]
    split
    · exact rfl
    · exact writeOperand_storedOnlyAt d _ s
  | jz g =>
    simp only [executeStoresAt, executeOp, jzOp]
    split <;> exact rfl
  | jnz g =>
    simp only [executeStoresAt, executeOp, jnzOp]
    split <;> exact rfl
  | nop => exact rfl
  | load _ _ => exact rfl
  | store _ _ => exact rfl
  | cmp _ _ => exact rfl
  | jmp _ => exact rfl

/-- MEMORY of every type stores where `memoryStoresAt` says and nowhere else. -/
theorem memoryOp_storedOnlyAt {i : Instr} {s t : State} (h : memoryOp i s = some t) :
    StoredOnlyAt (memoryStoresAt i s) s.mem t.mem := by
  cases i with
  | load d a =>
    simp only [memoryOp, loadOp, Option.map_eq_some_iff] at h
    obtain ⟨ea, ha, rfl⟩ := h
    simp only [memoryStoresAt, ha, Option.bind_some]
    exact writeOperand_storedOnlyAt d _ _
  | store v a =>
    simp only [memoryOp, storeOp, Option.map_eq_some_iff] at h
    obtain ⟨ea, ha, rfl⟩ := h
    simp only [memoryStoresAt, ha]
    exact Memory.write_storedOnlyAt _ _ _
  | _ =>
    obtain rfl : s = t := by simpa [memoryOp, noMemory] using h
    exact rfl

/-- Where a phase stores depends on registers and memory alone. -/
theorem executeStoresAt_congr {s t : State} (hr : s.regs = t.regs) (hm : s.mem = t.mem) (i : Instr) :
    executeStoresAt i s = executeStoresAt i t := by
  cases i <;> simp only [executeStoresAt, effAddr_congr hr, readOperand_congr hr hm]

theorem memoryStoresAt_congr {s t : State} (hr : s.regs = t.regs) (hm : s.mem = t.mem) (i : Instr) :
    memoryStoresAt i s = memoryStoresAt i t := by
  cases i with
  | load d a =>
    simp only [memoryStoresAt, effAddr_congr hr a, State.memRead_eq, hm]
    congr 1
    funext ea
    exact effAddr_congr (by simp [hr]) d
  | store v a => exact effAddr_congr hr a
  | _ => rfl

/-- The registers and memory a run leaves: FETCH's, then the EXECUTE operation, then the MEMORY operation
(R145), on the state `s.fetched`. -/
def dataAfter (cfg : Config) (i : Instr) (s : State) : Option (Regs × Memory) :=
  (memoryOp i (executeOp cfg i s.fetched)).map fun u => (u.regs, u.mem)

/-- A run stores where `runStoresAt` says and nowhere else. -/
theorem dataAfter_storedOnlyAt {cfg : Config} {i : Instr} {s : State} {d : Regs × Memory}
    (h : dataAfter cfg i s = some d) : StoredOnlyAt (runStoresAt i s) s.mem d.2 := by
  obtain ⟨u, hu, rfl⟩ := Option.map_eq_some_iff.mp h
  have he := executeOp_storedOnlyAt cfg i s.fetched
  have hm := memoryOp_storedOnlyAt hu
  cases i with
  | load d a => exact hm
  | store v a => exact hm
  | _ =>
    obtain rfl := Option.some.inj hu
    simp only [runStoresAt, memoryStoresAt, Option.or_none]
    exact he

/-- The state of a completed run with given registers and memory. -/
def completedState (i : Instr) (s : State) (d : Regs × Memory) : State :=
  { s with regs := d.1, mem := d.2, phase := .writeback, cur := some i, running := false, stepIndex := 5,
           signals := ControlSignals.idle, active := Components.none }

/-- The run as one function: everything it does, from any state and under any parameter setting. -/
theorem runWith_eq (cfg : Config) (i : Instr) (s : State) :
    runWith cfg i s = (dataAfter cfg i s).map (completedState i s) := by
  have he := executeOp_actsOnData cfg i
    (beginPhase .execute { Components.none with alu := true, cu := true }
      (decodePhase cfg i (fetchPhase (enterRun i s)))) s.fetched rfl rfl
  obtain ⟨her, hem, hef⟩ := he
  generalize hE : executeOp cfg i (beginPhase .execute { Components.none with alu := true, cu := true }
      (decodePhase cfg i (fetchPhase (enterRun i s)))) = E at her hem hef
  have hm := memoryOp_actsOnData i
    (beginPhase .memory (memoryComponents i.type) (deactAll E)) (executeOp cfg i s.fetched) her hem
  obtain ⟨hmd, hmf⟩ := hm
  unfold runWith completeRun dataAfter executePhase executeBody memoryPhase memoryBody
  simp only [hE]
  rw [← hmd]
  cases hu : memoryOp i (beginPhase .memory (memoryComponents i.type) (deactAll E)) with
  | none => rfl
  | some u =>
    have hf := hmf u hu
    simp only [Option.map_some]
    congr 1
    rw [hf, hef]
    unfold writebackPhase writebackBody
    split <;> rfl

/-- The meanings are one submission each. -/
theorem exec_eq_submit (i : Instr) (s : State) :
    exec i s = submit i (executeOp settings i) (memoryOp i) s := by
  cases i <;> rfl

/-- Everything `exec` can do: an ignored start, a completed run, or a refusal of an instruction that is not
well formed. -/
theorem exec_cases (i : Instr) (s : State) :
    exec i s =
      if s.ignoresStart then .next s
      else
        match dataAfter settings i s with
        | some d => .next (completedState i s d)
        | none => .refused .addressOperandNotAdmitted := by
  rw [exec_eq_submit, submit]
  split
  · rfl
  · have hr := runWith_eq settings i s
    rw [runWith] at hr
    rw [hr]
    have hw := memoryOp_isSome i (executeOp settings i s.fetched)
    unfold dataAfter
    cases h : memoryOp i (executeOp settings i s.fetched) with
    | none => simp [h] at hw ⊢
    | some u =>
      have hw' : i.wf = true := by simpa [h] using hw.symm
      simp [hw']

/-- A ready state accepts a start. -/
theorem ignoresStart_of_ready {s : State} (h : s.ready) : s.ignoresStart = false := by
  simp [State.ignoresStart, h.1, h.2]

theorem ignoresStart_of_not_ready {s : State} (h : ¬ s.ready) : s.ignoresStart = true := by
  unfold State.ready at h
  unfold State.ignoresStart
  cases hr : s.running <;> cases hf : s.fault <;> simp_all

/-- A type with no MEMORY operation leaves what its EXECUTE operation leaves. -/
theorem dataAfter_of_noMemory (cfg : Config) {i : Instr} (h : memoryOp i = noMemory) (s : State) :
    dataAfter cfg i s = some ((executeOp cfg i s.fetched).regs, (executeOp cfg i s.fetched).mem) := by
  simp [dataAfter, h, noMemory]

/-- What LOAD leaves: MAR and MDR staged, then the destination write. -/
theorem dataAfter_load (cfg : Config) {addr : Operand} {s : State} {ea : Word} (h : effAddr addr s.fetched = some ea)
    (dst : Operand) :
    dataAfter cfg (.load dst addr) s =
      let u := writeOperand dst (s.mem.read ea) ((s.fetched.setReg .mar ea).setReg .mdr (s.mem.read ea))
      some (u.regs, u.mem) := by
  simp only [dataAfter, memoryOp, executeOp, noExecute, loadOp_of_effAddr h, Option.map_some, State.fetched_mem]

/-- What STORE leaves: MAR and MDR staged, then the cell. -/
theorem dataAfter_store (cfg : Config) {addr : Operand} {s : State} {ea : Word} (h : effAddr addr s.fetched = some ea)
    (src : Operand) :
    dataAfter cfg (.store src addr) s =
      let v := readOperand src (s.fetched.setReg .mar ea)
      some (((s.fetched.regs.set .mar ea).set .mdr v), s.mem.write ea v) := by
  simp only [dataAfter, memoryOp, executeOp, noExecute, storeOp_of_effAddr h, Option.map_some]
  rfl

/-- A ready state runs to the completed state of the data the run leaves. -/
theorem exec_of_dataAfter {i : Instr} {s : State} {d : Regs × Memory} (hr : s.ready)
    (hd : dataAfter settings i s = some d) : exec i s = .next (completedState i s d) := by
  rw [exec_cases, ignoresStart_of_ready hr, hd]
  rfl

end Sys2Proof.Machine
end

