-- ==== Sys2Proof/Tests/Slice0.lean ====
section
/-! SUPPORT. Tests. Every expected value is from spec/95_test_vectors.md (the section is named before each
group), from the worked examples of the instruction rules, or from the encoding tables; and for every
statement with hypotheses a state and operands that meet them. -/

namespace Sys2Proof.Tests

open Sys2Proof.Machine

/-- The reset state with other registers. -/
def withRegs (x : Regs) : State := { State.reset with regs := x }

/-- The reset state with other registers and one cell holding a word. -/
def withCell (x : Regs) (a : Nat) (v : Word) : State := { State.reset with regs := x, mem := ⟨[(a, v)], [a]⟩ }

/-- What a next state shows, if there is one. -/
def shows {α : Type} (f : State → α) (o : Host.Outcome State Fault Refusal) : Option α :=
  match o with
  | .next t => some (f t)
  | _ => none

/-- The refusal, if there is one. -/
def refusal (o : Host.Outcome State Fault Refusal) : Option Refusal :=
  match o with
  | .refused r => some r
  | _ => none

/-! ### Well-formedness (R94 (d)) -/

theorem test_wf_refuses_load_immediate : (Instr.load (.reg .r1) (.imm 5)).wf = false := by decide
theorem test_wf_refuses_load_register : (Instr.load (.reg .r1) (.reg .r2)).wf = false := by decide
theorem test_wf_refuses_store_immediate : (Instr.store (.reg .r1) (.imm 5)).wf = false := by decide
theorem test_wf_refuses_store_register : (Instr.store (.reg .r1) (.reg .r2)).wf = false := by decide
theorem test_wf_admits_immediate_destination : (Instr.add (.imm 1) (.reg .r2) (.reg .r3)).wf = true := by decide
theorem test_exec_refuses_load_immediate :
    refusal (exec (.load (.reg .r1) (.imm 5)) State.reset) = some .addressOperandNotAdmitted := by decide

/-! ### The display encoding (section 2.1) and its representatives -/

theorem test_encode_nop : encode .nop = 0x00000000 := by decide
theorem test_encode_load : encode (.load (.reg .r1) (.ind .psw)) = 0x01018D00 := by decide
theorem test_encode_store : encode (.store (.imm 7) (.ind .sp)) = 0x02078900 := by decide
theorem test_encode_add : encode (.add (.dir 1004) (.reg .r2) (.imm 5)) = 0x10EC0200 := by decide
theorem test_encode_sub : encode (.sub (.reg .r1) (.reg .r1) (.imm 1)) = 0x11010100 := by decide
theorem test_encode_mul : encode (.mul (.reg .r5) (.reg .r1) (.reg .r2)) = 0x12050100 := by decide
theorem test_encode_div : encode (.div (.reg .r6) (.reg .r1) (.reg .r2)) = 0x13060100 := by decide
theorem test_encode_mov : encode (.mov (.reg .r1) (.imm 0xFFFFFFFF)) = 0x2001FF00 := by decide
theorem test_encode_cmp : encode (.cmp (.reg .r1) (.reg .r2)) = 0x21010200 := by decide
theorem test_encode_jmp : encode (.jmp (.ind .r1)) = 0x30810000 := by decide
theorem test_encode_jz : encode (.jz (.imm 24)) = 0x31180000 := by decide
theorem test_encode_jnz : encode (.jnz (.imm 8)) = 0x32080000 := by decide

theorem test_word_nop : decodeTableWord 32 0x00000000 = some .nop := by decide
theorem test_word_load : decodeTableWord 32 0x01018D00 = some (.load (.reg .r1) (.ind .psw)) := by decide
theorem test_word_store : decodeTableWord 32 0x02018900 = some (.store (.reg .r1) (.ind .sp)) := by decide
theorem test_word_add : (decodeTableWord 32 0x10000100).map (·.operands.take 2) = some [.reg .r0, .reg .r1] := by decide
theorem test_word_sub : (decodeTableWord 32 0x11010100).map Instr.type = some .sub := by decide
theorem test_word_mul : (decodeTableWord 32 0x12050100).map Instr.type = some .mul := by decide
theorem test_word_div : (decodeTableWord 32 0x13060100).map Instr.type = some .div := by decide
theorem test_word_mov : decodeTableWord 32 0x20030D00 = some (.mov (.reg .r3) (.reg .psw)) := by decide
theorem test_word_cmp : decodeTableWord 32 0x21010200 = some (.cmp (.reg .r1) (.reg .r2)) := by decide
theorem test_word_jmp : decodeTableWord 32 0x30070000 = some (.jmp (.reg .r7)) := by decide
theorem test_word_jz : decodeTableWord 32 0x31180000 = some (.jz (.imm 24)) := by decide
theorem test_word_jnz : decodeTableWord 32 0x32810000 = some (.jnz (.ind .r1)) := by decide
theorem test_word_outside_the_image : decodeTableWord 32 0x14000000 = none ∧ decodeTableWord 32 0x30010100 = none := by decide
theorem test_word_outside_is_no_event :
    shows (fun t => t) (step (State.reset.withFetchWord 32 0x14000000))
      = some (State.reset.withFetchWord 32 0x14000000) := by decide
theorem test_fetch_word_is_in_ir_and_only_its_type_runs :
    shows (fun t => (t.cur.map Instr.type, t.regs.ir, t.regs.pc)) (step (State.reset.withFetchWord 32 0x20030D00))
      = some (some .mov, 0x20030D00, 4) := by decide
theorem test_fetch_word_operands_are_not_decoded :
    (State.reset.withFetchWord 32 0x20030D00).inbox = (State.reset.withFetchWord 32 0x20010A00).inbox := by decide
theorem test_specimens_keep_their_type :
    InstrType.all.map (fun t => t.specimen.type) = InstrType.all
      ∧ ∀ t ∈ InstrType.all, t.specimen.wf = true ∧ tableRow (encode t.specimen) = some t := by decide

/-! ### The instruction port, field by field (R95) -/

/-- A lane that carries nothing in particular: its fields are not read. -/
def junk : OperandLane := ⟨3, 15, 0xDEADBEEF⟩

theorem test_port_nop : decodePort ⟨true, 0x00, 0, junk, junk, junk⟩ = .ok .nop := by decide
theorem test_port_load : decodePort ⟨true, 0x01, 2, ⟨1, 2, 0⟩, ⟨2, 15, 1000⟩, junk⟩ = .ok (.load (.reg .r2) (.dir 1000)) := by decide
theorem test_port_store : decodePort ⟨true, 0x02, 2, ⟨0, 15, 7⟩, ⟨3, 9, 0⟩, junk⟩ = .ok (.store (.imm 7) (.ind .sp)) := by decide
theorem test_port_add : decodePort ⟨true, 0x10, 3, ⟨1, 0, 0⟩, ⟨1, 1, 0⟩, ⟨1, 2, 0⟩⟩ = .ok (.add (.reg .r0) (.reg .r1) (.reg .r2)) := by decide
theorem test_port_sub : decodePort ⟨true, 0x11, 3, ⟨1, 4, 0⟩, ⟨1, 1, 0⟩, ⟨0, 0, 1⟩⟩ = .ok (.sub (.reg .r4) (.reg .r1) (.imm 1)) := by decide
theorem test_port_mul : decodePort ⟨true, 0x12, 3, ⟨3, 1, 0⟩, ⟨3, 1, 0⟩, ⟨0, 0, 2⟩⟩ = .ok (.mul (.ind .r1) (.ind .r1) (.imm 2)) := by decide
theorem test_port_div : decodePort ⟨true, 0x13, 3, ⟨1, 6, 0⟩, ⟨1, 10, 0⟩, ⟨1, 11, 0⟩⟩ = .ok (.div (.reg .r6) (.reg .ir) (.reg .mar)) := by decide
theorem test_port_mov : decodePort ⟨true, 0x20, 2, ⟨1, 8, 0⟩, ⟨0, 0, 100⟩, junk⟩ = .ok (.mov (.reg .pc) (.imm 100)) := by decide
theorem test_port_cmp : decodePort ⟨true, 0x21, 2, ⟨1, 12, 0⟩, ⟨1, 13, 0⟩, junk⟩ = .ok (.cmp (.reg .mdr) (.reg .psw)) := by decide
theorem test_port_jmp : decodePort ⟨true, 0x30, 1, ⟨2, 0, 100⟩, junk, junk⟩ = .ok (.jmp (.dir 100)) := by decide
theorem test_port_jz : decodePort ⟨true, 0x31, 1, ⟨0, 0, 24⟩, junk, junk⟩ = .ok (.jz (.imm 24)) := by decide
theorem test_port_jnz : decodePort ⟨true, 0x32, 1, ⟨1, 7, 0⟩, junk, junk⟩ = .ok (.jnz (.reg .r7)) := by decide
theorem test_port_register_14 : decodePort ⟨true, 0x30, 1, ⟨1, 14, 0⟩, junk, junk⟩ = .error .registerIndex := by decide
theorem test_port_unknown_type_first :
    decodePort ⟨true, 0x33, 3, junk, junk, junk⟩ = .error (.precondition .unknownType) := by decide

/-! ### Arithmetic (sections 1 and 2.3) -/

theorem test_add_s1 :
    shows (fun t => (t.regs.r0, t.regs.pc, t.regs.psw))
      (exec (.add (.reg .r0) (.reg .r1) (.reg .r2)) (withRegs { Regs.reset with r1 := 10, r2 := 5 }))
      = some (15, 4, 0) := by decide
theorem test_add_memory_to_memory :
    shows (fun t => (t.mem.read 100, t.regs.mar, t.regs.mdr))
      (exec (.add (.dir 100) (.dir 100) (.imm 1)) (withCell { Regs.reset with mdr := 3 } 100 41))
      = some (42, 0, 3) := by decide
theorem test_sub_below_zero :
    shows (fun t => (t.regs.r0, t.regs.psw))
      (exec (.sub (.reg .r0) (.reg .r1) (.reg .r2)) (withRegs { Regs.reset with r1 := 3, r2 := 5 }))
      = some (0xFFFFFFFE, 0) := by decide
theorem test_mul_high_bits_lost :
    shows (fun t => t.regs.r0)
      (exec (.mul (.reg .r0) (.reg .r1) (.reg .r2)) (withRegs { Regs.reset with r1 := 123456789, r2 := 1000 }))
      = some 0xBE991A08 := by decide
theorem test_div_truncates_toward_zero :
    shows (fun t => t.regs.r0)
      (exec (.div (.reg .r0) (.reg .r1) (.reg .r2)) (withRegs { Regs.reset with r1 := 0xFFFFFFF9, r2 := 2 }))
      = some 0xFFFFFFFD := by decide
theorem test_div_by_zero_s3 :
    shows (fun t => (t.regs.r0, t.regs.pc, t.faultCode))
      (exec (.div (.reg .r0) (.reg .r1) (.reg .r2)) (withRegs { Regs.reset with r0 := 99, r1 := 7 }))
      = some (99, 4, 0) := by decide

/-! ### Moves, loads, stores (section 2.6) -/

theorem test_mov_pc_reads_incremented :
    shows (fun t => (t.regs.r0, t.regs.pc)) (exec (.mov (.reg .r0) (.reg .pc)) (withRegs { Regs.reset with pc := 40 }))
      = some (44, 44) := by decide
theorem test_mov_indirect_destination :
    shows (fun t => (t.mem.read 1000, t.mem.written)) (exec (.mov (.ind .r3) (.imm 7)) (withRegs { Regs.reset with r3 := 1000 }))
      = some (7, [1000]) := by decide
theorem test_load_into_mar :
    shows (fun t => (t.regs.mar, t.regs.mdr)) (exec (.load (.reg .mar) (.dir 100)) (withCell Regs.reset 100 9))
      = some (9, 9) := by decide
theorem test_load_unset_cell :
    shows (fun t => (t.regs.r2, t.regs.mar, t.regs.mdr))
      (exec (.load (.reg .r2) (.dir 555)) (withRegs { Regs.reset with r2 := 1, mdr := 1 })) = some (0, 555, 0) := by decide
theorem test_store_mar_source :
    shows (fun t => (t.mem.read 200, t.regs.mar, t.regs.mdr)) (exec (.store (.reg .mar) (.dir 200)) State.reset)
      = some (200, 200, 200) := by decide
theorem test_store_through_old_mdr :
    shows (fun t => (t.mem.read 300, t.mem.read 301, t.regs.mdr))
      (exec (.store (.reg .r1) (.ind .mdr)) (withRegs { Regs.reset with r1 := 5, mdr := 300 })) = some (5, 0, 5) := by decide

/-! ### Compare, jumps, NOP (sections 2.4 and 2.5) -/

theorem test_cmp_exact_difference :
    shows (fun t => t.regs.psw)
      (exec (.cmp (.reg .r1) (.reg .r2)) (withRegs { Regs.reset with r1 := 0x80000000, r2 := 1 })) = some 0x80 := by decide
theorem test_cmp_old_psw :
    shows (fun t => t.regs.psw) (exec (.cmp (.reg .psw) (.imm 64)) (withRegs { Regs.reset with psw := 0x40 }))
      = some 0x40 := by decide
theorem test_jmp_through_cell :
    shows (fun t => t.regs.pc) (exec (.jmp (.ind .r1)) (withCell { Regs.reset with pc := 20, r1 := 100 } 100 8))
      = some 8 := by decide
theorem test_jmp_pc :
    shows (fun t => t.regs.pc) (exec (.jmp (.reg .pc)) (withRegs { Regs.reset with pc := 20 })) = some 24 := by decide
theorem test_jz_taken :
    shows (fun t => t.regs.pc) (exec (.jz (.imm 24)) (withRegs { Regs.reset with pc := 12, psw := 0x40 })) = some 24 := by decide
theorem test_jz_tests_only_bit_6 :
    shows (fun t => t.regs.pc) (exec (.jz (.imm 8)) (withRegs { Regs.reset with pc := 20, psw := 0xFFFFFFBF }))
      = some 24 := by decide
theorem test_jnz_taken :
    shows (fun t => t.regs.pc) (exec (.jnz (.imm 8)) (withRegs { Regs.reset with pc := 20, psw := 0x80 })) = some 8 := by decide
theorem test_jnz_not_taken :
    shows (fun t => t.regs.pc) (exec (.jnz (.imm 8)) (withRegs { Regs.reset with pc := 20, psw := 0x40 })) = some 24 := by decide
theorem test_nop_pc_wraps :
    shows (fun t => (t.regs.pc, t.regs.mar)) (exec .nop (withRegs { Regs.reset with pc := 0xFFFFFFFC }))
      = some (0, 0xFFFFFFFC) := by decide
theorem test_nop_reads_cell_into_ir :
    shows (fun t => (t.regs.ir, t.regs.mar, t.regs.pc)) (exec .nop (withCell { Regs.reset with pc := 4 } 4 123))
      = some (123, 4, 8) := by decide

/-! ### One run phase by phase (section 2.7): LOAD R2, 1000 from PC = 8 -/

/-- The trace of that run. -/
def loadTrace : List TraceRecord :=
  (runTrace settings (.load (.reg .r2) (.dir 1000)) (withCell { Regs.reset with pc := 8 } 1000 10)).getD []

theorem test_trace_components :
    loadTrace.map TraceRecord.active
      = [⟨false, true, false, true, true⟩, ⟨false, true, true, false, false⟩, ⟨true, true, false, false, false⟩,
         ⟨false, false, false, true, true⟩, ⟨false, false, true, false, false⟩] := by decide
theorem test_trace_registers :
    loadTrace.map (fun r => (r.regs.pc, r.regs.mar, r.regs.r2))
      = [(12, 8, 0), (12, 8, 0), (12, 8, 0), (12, 1000, 10), (12, 1000, 10)] := by decide
theorem test_trace_signals :
    loadTrace.map (fun r => (r.signals.memRead, r.signals.pcWrite, r.signals.regWrite))
      = [(true, true, false), (true, false, true), (true, false, true), (true, false, true), (true, false, true)] := by
  decide

/-! ### Faults, abort, reset (section 2.8) and the supply (P3, its first run) -/

/-- ADD R0, R1, R2 on the port. -/
def addPort : Port := encodePort (.add (.reg .r0) (.reg .r1) (.reg .r2))

theorem test_start_without_instruction :
    shows (fun t => (t.faultCode, t.regs, t.running)) (step { withRegs { Regs.reset with r1 := 1 } with inbox := [.start Port.empty] })
      = some (1, { Regs.reset with r1 := 1 }, false) := by decide
theorem test_start_with_two_operands :
    shows (fun t => (t.faultCode, t.cur)) (step { State.reset with inbox := [.start { addPort with nops := 2 }] })
      = some (2, none) := by decide
theorem test_start_ignored_while_faulted :
    shows (fun t => (t.faultCode, t.regs.pc)) (step { State.reset with fault := some .arityMismatch, inbox := [.run (encodePort .nop)] })
      = some (2, 0) := by decide
theorem test_reset_clears_fault :
    shows (fun t => t) (step { State.reset with fault := some .arityMismatch, regs := { Regs.reset with r3 := 9 }, inbox := [.reset] })
      = some State.reset := by decide
theorem test_abort_after_fetch :
    shows (fun t => (t.regs.pc, t.regs.r0, t.running, t.phase, t.stepIndex, t.signals.memRead))
      (core.run 3 { withRegs { Regs.reset with r1 := 10, r2 := 5 } with inbox := [.start addPort, .tick, .abort] })
      = some (4, 0, false, .fetch, 1, true) := by decide
theorem test_supply_follows_pc :
    shows (fun t => (t.cur, t.regs.pc)) (step { withRegs { Regs.reset with pc := 4 } with program := [.nop, .jmp (.imm 28)] })
      = some (some (.jmp (.imm 28)), 28) := by decide
theorem test_nothing_submitted : shows (fun t => t) (step State.reset) = some State.reset := by decide

/-! ### The Parser (section 2.2) -/

theorem test_parse_lower_case :
    (parse ['a', 'd', 'd', ' ', 'r', '0', ',', ' ', 'r', '1', ',', ' ', 'r', '2']).toOption.map Parsed.instr
      = some (.add (.reg .r0) (.reg .r1) (.reg .r2)) := by decide
theorem test_parse_indirect :
    (parse ['m', 'o', 'v', ' ', 'r', '1', ',', '[', 's', 'p', ']']).toOption.map Parsed.instr
      = some (.mov (.reg .r1) (.ind .sp)) := by decide
theorem test_parse_negative_immediate :
    (parse ['M', 'O', 'V', ' ', 'R', '1', ',', '#', '-', '1']).toOption.map Parsed.instr
      = some (.mov (.reg .r1) (.imm 0xFFFFFFFF)) := by decide
theorem test_parse_blank : parse [' ', ' '] = .error .emptyText := by decide
theorem test_parse_unknown : parse ['P', 'U', 'S', 'H', ' ', 'R', '1'] = .error .unknownMnemonic := by decide
theorem test_parse_count : parse ['N', 'O', 'P', ' ', 'R', '1'] = .error .operandCount := by decide
theorem test_parse_bracketed_number :
    parse ['M', 'O', 'V', ' ', 'R', '1', ',', '[', '1', '0', '0', ']'] = .error .unknownRegister := by decide
theorem test_parse_no_register_8 :
    parse ['M', 'O', 'V', ' ', 'R', '8', ',', '#', '1'] = .error .unparseableOperand := by decide
theorem test_parse_negative_address :
    parse ['L', 'O', 'A', 'D', ' ', 'R', '1', ',', '-', '4'] = .error .literalOutOfRange := by decide
theorem test_parse_encoding_is_the_encoders_or_none :
    ∃ p, parse ['N', 'O', 'P'] = .ok p ∧ (p.encoding = none ∨ p.encoding = some 0x00000000) := by
  refine ⟨_, rfl, ?_⟩
  unfold attachedEncoding
  split
  · exact .inr rfl
  · exact .inl rfl
theorem test_format_keeps_syntax :
    (parse ['m', 'o', 'v', ' ', 'R', '1', ' ', '#', '0', '7']).toOption.map formatInstruction
      = some ['M', 'O', 'V', ' ', 'R', '1', ',', '#', '0', '7'] := by decide

/-! ### States and operands that meet the hypotheses of the statements -/

/-- R1 = 7, R2 = 2, R3 = 0, one cell listed. -/
def sample : State := withCell { Regs.reset with r1 := 7, r2 := 2, mdr := 5 } 1000 10

/-- A run of `i` in progress after a number of phases. -/
def midRun (i : Instr) (p : Phase) : State :=
  { sample with cur := some i, running := true, phase := p, stepIndex := p.number }

/-- A latched fault. -/
def faulted : State := { sample with fault := some .arityMismatch }

theorem witness_AddStoresWrappedSum : sample.ready ∧ sample.mem.wf := by decide
theorem witness_SubStoresWrappedDifference : sample.ready ∧ sample.mem.wf := by decide
theorem witness_MulStoresLowProduct : sample.ready ∧ sample.mem.wf := by decide
theorem witness_DivStoresTruncatedQuotient :
    sample.ready ∧ sample.mem.wf ∧ readOperand (.reg .r2) sample.fetched ≠ 0 := by decide
theorem witness_DivByZeroWritesNothing : sample.ready ∧ readOperand (.reg .r3) sample.fetched = 0 := by decide
theorem witness_MovCopiesSource : sample.ready ∧ sample.mem.wf := by decide
theorem witness_LoadStagesAndWritesWord :
    sample.ready ∧ sample.mem.wf ∧ effAddr (.dir 0xFFFFFFFF) sample.fetched = some 0xFFFFFFFF
      ∧ effAddr (.ind .pc) sample.fetched = some 4 := by decide
theorem witness_StoreStagesAndStoresWord :
    sample.ready ∧ sample.mem.wf ∧ effAddr (.dir 0) sample.fetched = some 0
      ∧ effAddr (.ind .mar) sample.fetched = some 0 := by decide
theorem witness_AddressOperandDecidesLoadAndStore : sample.ready := by decide
theorem witness_CmpSetsFlagsOfExactDifference : sample.ready := by decide
theorem witness_JmpSetsPc : sample.ready := by decide
theorem witness_JzJumpsOnZeroFlag : sample.ready := by decide
theorem witness_JnzJumpsOnClearZeroFlag : sample.ready := by decide
theorem witness_NopOnlyFetches : sample.ready := by decide
theorem witness_EveryWellFormedInstructionCompletes :
    (Instr.load (.reg .pc) (.ind .psw)).wf = true ∧ (Instr.store (.imm 0) (.dir 0xFFFFFFFF)).wf = true ∧ sample.ready := by decide
theorem witness_OnlyCmpWritesPswImplicitly :
    sample.ready ∧ (∃ t, exec (.cmp (.reg .r1) (.reg .psw)) sample = .next t)
      ∧ (∃ t, exec (.mov (.reg .r0) (.reg .psw)) sample = .next t)
      ∧ (Instr.mov (.reg .r0) (.reg .psw)).type ≠ .cmp
      ∧ (Instr.mov (.reg .r0) (.reg .psw)).destination ≠ some (.reg .psw) :=
  ⟨by decide, ⟨_, rfl⟩, ⟨_, rfl⟩, by decide, by decide⟩
theorem witness_MarAndMdrFollowFetchLoadAndStore :
    sample.ready ∧ sample.mem.wf
      ∧ (∃ t, exec (.load (.reg .r0) (.ind .r1)) sample = .next t) ∧ effAddr (.ind .r1) sample.fetched = some 7
      ∧ (∃ t, exec (.store (.reg .mdr) (.dir 1000)) sample = .next t)
      ∧ (∃ t, exec (.add (.dir 1000) (.ind .mar) (.imm 1)) sample = .next t) :=
  ⟨by decide, by decide, ⟨_, rfl⟩, by decide, ⟨_, rfl⟩, ⟨_, rfl⟩⟩
theorem witness_UnnamedGeneralRegistersAndSpAreUntouched :
    Reg.sp ∉ [Reg.pc, .ir, .mar, .mdr, .psw] ∧ Reg.r7 ∉ [Reg.pc, .ir, .mar, .mdr, .psw] ∧ sample.ready
      ∧ (∀ o ∈ (Instr.add (.reg .r0) (.ind .r1) (.reg .pc)).operands, ¬ Operand.names o .sp)
      ∧ ∃ t, exec (.add (.reg .r0) (.ind .r1) (.reg .pc)) sample = .next t :=
  ⟨by decide, by decide, by decide, by simp [Instr.operands, Operand.names], ⟨_, rfl⟩⟩
theorem witness_OldIrAndMarReachNoRun :
    sample.ready ∧ (∃ t, exec (.mov (.ind .mar) (.reg .ir)) sample = .next t)
      ∧ exec (.store (.reg .ir) (.reg .mar)) sample = .refused .addressOperandNotAdmitted :=
  ⟨by decide, ⟨_, rfl⟩, rfl⟩
theorem witness_ConditionalJumpsReadOnlyTheZeroBit :
    sample.ready ∧ ¬ Operand.names (.ind .r1) .psw ∧ (0xFFFFFFBF : Word).getLsbD 6 = sample.regs.psw.getLsbD 6
      ∧ ¬ Operand.names (.dir 0) .psw :=
  ⟨by decide, by simp [Operand.names], by decide, by simp [Operand.names]⟩
theorem witness_CompareThenConditionalJump :
    sample.ready
      ∧ signedValue (readOperand (.reg .r1) sample.fetched) = signedValue (readOperand (.imm 7) sample.fetched)
      ∧ signedValue (readOperand (.imm 0x80000000) sample.fetched) ≠ signedValue (readOperand (.imm 0x7FFFFFFF) sample.fetched) := by
  decide
theorem witness_StoreThenLoadReturnsWord :
    sample.ready ∧ sample.mem.wf ∧ Reg.mdr ∉ [Reg.pc, .ir, .mar] ∧ Reg.psw ∉ [Reg.pc, .ir, .mar] := by decide
theorem witness_ControlSignalsGateNothing :
    (∃ t, tick (midRun (.load (.reg .r2) (.dir 1000)) .execute) = .next t) ∧ ∃ t, tick sample = .next t :=
  ⟨⟨_, rfl⟩, ⟨_, rfl⟩⟩
theorem witness_ExecIsTheRunUnderTheSettings : (Instr.load (.reg .r2) (.dir 1000)).wf = true ∧ sample.ready := by decide
theorem witness_ReadingsAgreeBelowBit31 :
    ∃ i : Instr, (∀ d a b, i = .div d a b →
        (readOperand a sample.fetched).toNat < 2 ^ 31 ∧ (readOperand b sample.fetched).toNat < 2 ^ 31)
      ∧ (∀ a b, i = .cmp a b →
        (readOperand a sample.fetched).toNat < 2 ^ 31 ∧ (readOperand b sample.fetched).toNat < 2 ^ 31)
      ∧ i = .div (.reg .r0) (.imm 0x7FFFFFFF) (.reg .r2) := by
  refine ⟨_, fun d a b h => ?_, fun a b h => (by cases h), rfl⟩
  cases h
  decide
theorem witness_ReadingsAgreeBelowBit31_cmp :
    ∀ a b, Instr.cmp (.imm 0) (.reg .r1) = .cmp a b →
      (readOperand a sample.fetched).toNat < 2 ^ 31 ∧ (readOperand b sample.fetched).toNat < 2 ^ 31 := by
  intro a b h
  cases h
  decide
theorem witness_JumpModesAgreeOnImmediateAndRegister :
    ∀ target, (Instr.jz (.reg .r7) = .jmp target ∨ Instr.jz (.reg .r7) = .jz target ∨ Instr.jz (.reg .r7) = .jnz target) →
      target.isAddress = false := by
  intro target h
  rcases h with h | h | h <;> cases h
  rfl
theorem witness_WritebackIsOnlyAMarker :
    (Instr.div (.reg .r0) (.reg .r1) (.imm 0)).type ∈ [InstrType.load, .add, .sub, .mul, .div, .mov]
      ∧ Instr.nop.type ∈ [InstrType.store, .cmp, .jmp, .jz, .jnz, .nop] := by decide
theorem witness_ComponentsInactiveAtEveryPhaseBoundary :
    (∃ t, memoryPhase .nop noMemory sample = some t)
      ∧ (∃ l, runTrace settings (.store (.reg .r1) (.dir 0)) sample = some l)
      ∧ Instr.nop.type ≠ .load ∧ Instr.nop.type ≠ .store ∧ sample.ready
      ∧ sample.active = Components.none ∧ ∃ t, step { sample with inbox := [.run addPort] } = .next t :=
  ⟨⟨_, rfl⟩, ⟨_, rfl⟩, by decide, by decide, by decide, rfl, _, rfl⟩
theorem witness_TraceHasFiveRecordsInOrder :
    sample.ready ∧ (Instr.load (.reg .r2) (.dir 1000)).wf = true
      ∧ ∃ t, exec (.load (.reg .r2) (.dir 1000)) sample = .next t :=
  ⟨by decide, by decide, ⟨_, rfl⟩⟩
theorem witness_FiveTicksCompleteTheRun :
    sample.ready ∧ decodePort addPort = .ok (.add (.reg .r0) (.reg .r1) (.reg .r2))
      ∧ (Instr.add (.reg .r0) (.reg .r1) (.reg .r2)).wf = true := by decide
theorem witness_RunCompletesInExactlyFivePhases :
    sample.ready ∧ decodePort addPort = .ok (.add (.reg .r0) (.reg .r1) (.reg .r2))
      ∧ (Instr.add (.reg .r0) (.reg .r1) (.reg .r2)).wf = true ∧ 0 ≤ 5 ∧ 5 ≤ 5 := by decide
theorem witness_AbortOnlyStopsTheRun :
    { midRun .nop .fetch with inbox := [.abort] }.inbox = .abort :: [] ∧ { sample with inbox := [.abort, .tick] }.inbox = .abort :: [.tick] :=
  ⟨rfl, rfl⟩
theorem witness_QuietPhasesChangeNoRegisterAndNoCell :
    ((midRun .nop .fetch).running = true ∧ (midRun .nop .fetch).stepIndex = 1 ∧ ∃ t, tick (midRun .nop .fetch) = .next t)
      ∧ ((midRun .nop .memory).stepIndex = 4 ∧ ∃ t, tick (midRun .nop .memory) = .next t)
      ∧ ((midRun (.load (.reg .r2) (.dir 0)) .decode).stepIndex = 2
          ∧ (∃ d a, (midRun (.load (.reg .r2) (.dir 0)) .decode).cur = some (.load d a))
          ∧ ∃ t, tick (midRun (.load (.reg .r2) (.dir 0)) .decode) = .next t)
      ∧ (midRun .nop .execute).stepIndex = 3 ∧ ∃ t, tick (midRun .nop .execute) = .next t :=
  ⟨⟨rfl, rfl, _, rfl⟩, ⟨rfl, _, rfl⟩, ⟨rfl, ⟨_, _, rfl⟩, _, rfl⟩, rfl, _, rfl⟩
theorem witness_QuietPhasesChangeNoRegisterAndNoCell_memory :
    ∀ d a, (midRun .nop .execute).cur ≠ some (.load d a) ∧ (midRun .nop .execute).cur ≠ some (.store d a) := by
  simp [midRun]
theorem witness_StepRunsTheDecodedInstruction :
    sample.ready ∧ decodePort addPort = .ok (.add (.reg .r0) (.reg .r1) (.reg .r2))
      ∧ { sample with inbox := [.run addPort] }.inbox = .run addPort :: []
      ∧ { sample with inbox := [.start addPort, .tick] }.inbox = .start addPort :: [.tick]
      ∧ { withRegs { Regs.reset with pc := 4 } with program := [.nop, .nop] }.program[(4 : Word).toNat / 4]? = some .nop := by decide
theorem witness_QuietHostChangesNothing :
    (withRegs { Regs.reset with pc := 3 }).inbox = [] ∧ (withRegs { Regs.reset with pc := 3 }).regs.pc.toNat % 4 ≠ 0
      ∧ sample.inbox = [] ∧ sample.program.length ≤ sample.regs.pc.toNat / 4 ∧ faulted.inbox = [] ∧ ¬ faulted.ready := by decide
theorem witness_StartIsIgnoredWhenNotReady :
    ¬ { faulted with inbox := [.start addPort] }.ready ∧ ¬ { midRun .nop .decode with inbox := [.run addPort] }.ready := by decide
theorem witness_PreconditionFaultChangesOnlyFault :
    sample.ready ∧ Port.empty.valid = false ∧ { addPort with type := 0x33 }.valid = true
      ∧ (∀ y ∈ InstrType.all, y.opcode ≠ ({ addPort with type := 0x33 } : Port).type)
      ∧ ({ addPort with nops := 2 } : Port).valid = true
      ∧ InstrType.add.opcode = ({ addPort with nops := 2 } : Port).type
      ∧ InstrType.add.arity ≠ ({ addPort with nops := 2 } : Port).nops.toNat := by decide
theorem witness_FaultIsStickyUntilReset :
    { faulted with inbox := [.reset] }.inv ∧ { faulted with inbox := [.reset] }.goneWrong
      ∧ { faulted with inbox := [.tick] }.inv ∧ { faulted with inbox := [.tick] }.inbox.head? ≠ some .reset := by decide
theorem witness_ResetReinitialisesTheEngine : { midRun .nop .decode with inbox := [.reset] }.inbox = .reset :: [] := rfl
theorem witness_CellsAreIndependent : sample.mem.wf ∧ Memory.empty.wf := by decide
/-- MOV 7, #0: a store of 0 over a cell that reads 0. -/
def storeZero : Instr := .mov (.dir 7) (.imm 0)

theorem witness_KeySetRecordsEveryStore :
    sample.ready ∧ (∃ t, exec storeZero sample = .next t) ∧ runStoresAt storeZero sample = some 7
      ∧ (∃ t, exec .nop sample = .next t) ∧ runStoresAt .nop sample = none
      ∧ { sample with inbox := [.run (encodePort storeZero)] }.inv
      ∧ (∃ t, step { sample with inbox := [.run (encodePort storeZero)] } = .next t)
      ∧ { sample with inbox := [.run (encodePort storeZero)] }.inbox.head? ≠ some .reset
      ∧ stepStoresAt { sample with inbox := [.run (encodePort storeZero)] } = some 7 :=
  ⟨by decide, ⟨_, rfl⟩, by decide, ⟨_, rfl⟩, by decide, by decide, ⟨_, rfl⟩, by decide, by decide⟩
theorem witness_KeySetRecordsEveryStore_tick :
    { midRun (.store (.reg .r1) (.ind .r2)) .execute with inbox := [.tick] }.inv
      ∧ (∃ t, step { midRun (.store (.reg .r1) (.ind .r2)) .execute with inbox := [.tick] } = .next t)
      ∧ stepStoresAt { midRun (.store (.reg .r1) (.ind .r2)) .execute with inbox := [.tick] } = some 2
      ∧ stepStoresAt { midRun (.div (.dir 7) (.reg .r1) (.reg .r3)) .decode with inbox := [.tick] } = none
      ∧ stepStoresAt { sample with program := [storeZero] } = some 7 :=
  ⟨by decide, ⟨_, rfl⟩, by decide, by decide, by decide⟩
theorem witness_EveryStepKeepsTheInvariant :
    { midRun (.store (.reg .r1) (.dir 0)) .execute with inbox := [.tick] }.inv
      ∧ ∃ t, step { midRun (.store (.reg .r1) (.dir 0)) .execute with inbox := [.tick] } = .next t :=
  ⟨by decide, ⟨_, rfl⟩⟩
theorem witness_NoStepFaults : { midRun .nop .memory with inbox := [.tick] }.inv := by decide
theorem witness_OnlyExcludedInstructionsAreRefused :
    { sample with program := [.load (.reg .r1) (.imm 5)] }.inv
      ∧ step { sample with program := [.load (.reg .r1) (.imm 5)] } = .refused .addressOperandNotAdmitted
      ∧ supplyPC [.load (.reg .r1) (.imm 5)] sample.regs.pc = some (.load (.reg .r1) (.imm 5))
      ∧ { sample with inbox := [.start ⟨true, 0x30, 1, junk, junk, junk⟩] }.inv
      ∧ step { sample with inbox := [.start ⟨true, 0x30, 1, junk, junk, junk⟩] } = .refused .registerIndexOutOfRange :=
  ⟨by decide, rfl, by decide, by decide, rfl⟩
theorem witness_StepConsumesOneInput :
    ∃ t, step { sample with inbox := [.run addPort, .abort], program := [.nop] } = .next t := ⟨_, rfl⟩
theorem witness_DecodedBundleCarriesItsInstruction :
    decodePort addPort = .ok (.add (.reg .r0) (.reg .r1) (.reg .r2)) ∧ decodePort ⟨true, 0x00, 0, junk, junk, junk⟩ = .ok .nop := by
  decide
theorem witness_DecodedBundleCarriesItsInstruction_lanes :
    OperandLane.Carries ⟨0, 15, 7⟩ (.imm 7) ∧ OperandLane.Carries ⟨1, 13, 9⟩ (.reg .psw)
      ∧ OperandLane.Carries ⟨2, 15, 1000⟩ (.dir 1000) ∧ OperandLane.Carries ⟨3, 0, 9⟩ (.ind .r0) :=
  ⟨⟨rfl, rfl⟩, ⟨rfl, rfl⟩, ⟨rfl, rfl⟩, rfl, rfl⟩
theorem witness_OpcodeByteOfEachType :
    Instr.nop.type.arity = 0 ∧ (Instr.jnz (.imm 0xFFFFFFFF)).type.arity = 1 := by decide
theorem witness_RepresentativeHasTheSameWord : (Instr.store (.dir 0x8D) (.dir 0x10D)).wf = true := by decide
theorem witness_TableRowsAreTheEncodersImage :
    tableRow (encode (.store (.imm 0xFFFFFFFF) (.ind .psw))) = some .store
      ∧ (Instr.store (.imm 0xFFFFFFFF) (.ind .psw)).wf = true ∧ tableRow 0x30010100 = none
      ∧ tableRow 0x32FF0000 = some .jnz ∧ tableRow 0x33000000 = none ∧ tableRow 0x00000001 = none := by decide
theorem witness_DisplayWordIsLossy : InstrType.div ∈ [InstrType.add, .sub, .mul, .div] := by decide
theorem witness_FormatThenParseRoundTrip : ∃ p, parse ['m', 'o', 'v', ',', 'r', '1', '\t', '[', 'S', 'p', ']'] = .ok p :=
  ⟨_, rfl⟩
theorem witness_ParseFailsExactlyOnWrongCount :
    tokenise [] ['j', 'z', ' ', '8'] = ['j', 'z'] :: [['8']] ∧ typeOfName (upper ['j', 'z']) = some .jz
      ∧ classifyAll [['8']] = .ok [.dir 8] ∧ [Operand.dir 8].length = InstrType.jz.arity
      ∧ [Operand.dir 8].length ≠ InstrType.nop.arity := by decide
theorem witness_ParseIgnoresCase :
    (∃ p, parse ['n', 'o', 'p'] = .ok p) ∧ parse ['n', 'o', 'p', 'e'] = .error .unknownMnemonic := ⟨⟨_, rfl⟩, by decide⟩

end Sys2Proof.Tests
end

/-! SUPPORT. The state family (spec/10_state.md): which registers a run touches (R31, R33), what no rule reads
(R39), and where the component activations are cleared (R43). -/

/-! ### Operands that name a register (R22, R90) -/

namespace Sys2Proof

@[simp] theorem Operand.names_reg (q r : Reg) : (Operand.reg q).names r ↔ q = r := by simp [Operand.names]

@[simp] theorem Operand.names_ind (q r : Reg) : (Operand.ind q).names r ↔ q = r := by simp [Operand.names]

end Sys2Proof

namespace Sys2Proof.Machine

/-! ### A register write beside the operations: what it does not name it commutes with -/

theorem State.getReg_setReg_ne (s : State) {q r : Reg} (v : Word) (h : q ≠ r) :
    (s.setReg r v).getReg q = s.getReg q := Regs.get_set_ne s.regs v h

theorem State.setReg_comm (s : State) {q r : Reg} (v w : Word) (h : q ≠ r) :
    (s.setReg q v).setReg r w = (s.setReg r w).setReg q v := by
  simp only [State.setReg, Regs.set_comm s.regs v w h]

theorem State.setReg_getReg_self (s : State) (r : Reg) : s.setReg r (s.getReg r) = s := by
  simp only [State.setReg, State.getReg, Regs.set_get_self]

theorem State.setReg_memWrite (s : State) (r : Reg) (v a w : Word) :
    (s.setReg r v).memWrite a w = (s.memWrite a w).setReg r v := rfl

section Unnamed

variable {op : Operand} {r : Reg} (hn : ¬ op.names r) (s : State) (v : Word)
include hn

theorem readOperand_setReg : readOperand op (s.setReg r v) = readOperand op s := by
  cases op with
  | imm _ => rfl
  | dir _ => rfl
  | reg q => exact s.getReg_setReg_ne v (by simpa using hn)
  | ind q => exact congrArg s.memRead (s.getReg_setReg_ne v (by simpa using hn))

theorem effAddr_setReg : effAddr op (s.setReg r v) = effAddr op s := by
  cases op with
  | imm _ => rfl
  | dir _ => rfl
  | reg _ => rfl
  | ind q => exact congrArg some (s.getReg_setReg_ne v (by simpa using hn))

theorem jumpTarget_setReg (mode : JumpTargetMode) :
    jumpTarget mode op (s.setReg r v) = jumpTarget mode op s := by
  cases mode with
  | value => exact readOperand_setReg hn s v
  | address =>
    cases op with
    | imm _ => rfl
    | dir _ => rfl
    | reg q => exact s.getReg_setReg_ne v (by simpa using hn)
    | ind q => exact s.getReg_setReg_ne v (by simpa using hn)

theorem writeOperand_setReg (w : Word) :
    writeOperand op w (s.setReg r v) = (writeOperand op w s).setReg r v := by
  cases op with
  | imm _ => rfl
  | dir _ => rfl
  | reg q => exact (s.setReg_comm w v (by simpa using hn)).symm
  | ind q =>
    have hq : (s.setReg r v).getReg q = s.getReg q := s.getReg_setReg_ne v (by simpa using hn)
    simp only [writeOperand, hq, State.setReg_memWrite]

end Unnamed

/-- FETCH's effect as its three register writes (R135). -/
theorem State.fetched_eq_setReg (s : State) :
    s.fetched = ((s.setReg .mar (s.getReg .pc)).setReg .ir (s.memRead (s.getReg .pc))).setReg .pc (s.getReg .pc + 4) :=
  rfl

/-- FETCH reads PC and writes MAR, IR and PC: it commutes with a write to any other register. -/
theorem State.fetched_setReg (s : State) {r : Reg} (v : Word) (hpc : r ≠ .pc) (hir : r ≠ .ir) (hmar : r ≠ .mar) :
    (s.setReg r v).fetched = s.fetched.setReg r v := by
  have hm (a : Word) : (s.setReg r v).memRead a = s.memRead a := rfl
  rw [State.fetched_eq_setReg, State.fetched_eq_setReg, s.getReg_setReg_ne v hpc.symm, hm,
    State.setReg_comm _ _ _ hmar, State.setReg_comm _ _ _ hir, State.setReg_comm _ _ _ hpc]

/-- EXECUTE touches the registers its operands name, PC and PSW: it commutes with a write to any other. -/
theorem executeOp_setReg (cfg : Config) {i : Instr} {r : Reg} (hpc : r ≠ .pc) (hpsw : r ≠ .psw)
    (hn : ∀ o ∈ i.operands, ¬ o.names r) (s : State) (v : Word) :
    executeOp cfg i (s.setReg r v) = (executeOp cfg i s).setReg r v := by
  have hz : (s.setReg r v).getReg .psw = s.getReg .psw := s.getReg_setReg_ne v hpsw.symm
  cases i with
  | nop => rfl
  | load _ _ => rfl
  | store _ _ => rfl
  | add d a b | sub d a b | mul d a b =>
    obtain ⟨hd, ha, hb⟩ : ¬ d.names r ∧ ¬ a.names r ∧ ¬ b.names r := by simpa [Instr.operands] using hn
    simp only [executeOp, addOp, subOp, mulOp, readOperand_setReg ha, readOperand_setReg hb, writeOperand_setReg hd]
  | div d a b =>
    obtain ⟨hd, ha, hb⟩ : ¬ d.names r ∧ ¬ a.names r ∧ ¬ b.names r := by simpa [Instr.operands] using hn
    simp only [executeOp, divOp, readOperand_setReg ha, readOperand_setReg hb, writeOperand_setReg hd]
    split <;> rfl
  | mov d a =>
    obtain ⟨hd, ha⟩ : ¬ d.names r ∧ ¬ a.names r := by simpa [Instr.operands] using hn
    simp only [executeOp, movOp, readOperand_setReg ha, writeOperand_setReg hd]
  | cmp a b =>
    obtain ⟨ha, hb⟩ : ¬ a.names r ∧ ¬ b.names r := by simpa [Instr.operands] using hn
    simp only [executeOp, cmpOp, readOperand_setReg ha, readOperand_setReg hb, State.setReg_comm _ _ _ hpsw]
  | jmp g =>
    have hg : ¬ g.names r := by simpa [Instr.operands] using hn
    simp only [executeOp, jmpOp, jumpTarget_setReg hg, State.setReg_comm _ _ _ hpc]
  | jz g | jnz g =>
    have hg : ¬ g.names r := by simpa [Instr.operands] using hn
    simp only [executeOp, jzOp, jnzOp, hz, jumpTarget_setReg hg, State.setReg_comm _ _ _ hpc]
    split <;> rfl

/-- MEMORY touches the registers its operands name, MAR and MDR: it commutes with a write to any other. -/
theorem memoryOp_setReg {i : Instr} {r : Reg} (hmar : r ≠ .mar) (hmdr : r ≠ .mdr)
    (hn : ∀ o ∈ i.operands, ¬ o.names r) (s : State) (v : Word) :
    memoryOp i (s.setReg r v) = (memoryOp i s).map (·.setReg r v) := by
  cases i with
  | load d a =>
    obtain ⟨hd, ha⟩ : ¬ d.names r ∧ ¬ a.names r := by simpa [Instr.operands] using hn
    have hea := effAddr_setReg ha s v
    cases h : effAddr a s with
    | none => simp [memoryOp, loadOp, hea, h]
    | some ea =>
      simp only [memoryOp, loadOp_of_effAddr h, loadOp_of_effAddr (hea.trans h), Option.map_some, State.setReg_mem,
        State.setReg_comm _ _ _ hmar, State.setReg_comm _ _ _ hmdr, writeOperand_setReg hd]
  | store d a =>
    obtain ⟨hd, ha⟩ : ¬ d.names r ∧ ¬ a.names r := by simpa [Instr.operands] using hn
    have hea := effAddr_setReg ha s v
    cases h : effAddr a s with
    | none => simp [memoryOp, storeOp, hea, h]
    | some ea =>
      simp only [memoryOp, storeOp_of_effAddr h, storeOp_of_effAddr (hea.trans h), Option.map_some,
        State.setReg_comm _ _ _ hmar, State.setReg_comm _ _ _ hmdr, readOperand_setReg hd, State.setReg_memWrite]
  | _ => rfl

/-- A run touches the registers its operands name and the five special ones; from any other value of a register
outside these it leaves the same data with that value. -/
theorem dataAfter_setReg (cfg : Config) {i : Instr} {r : Reg} (hr : r ∉ [Reg.pc, .ir, .mar, .mdr, .psw])
    (hn : ∀ o ∈ i.operands, ¬ o.names r) (s : State) (v : Word) :
    dataAfter cfg i (s.setReg r v) = (dataAfter cfg i s).map fun d => (d.1.set r v, d.2) := by
  obtain ⟨hpc, hir, hmar, hmdr, hpsw⟩ : r ≠ .pc ∧ r ≠ .ir ∧ r ≠ .mar ∧ r ≠ .mdr ∧ r ≠ .psw := by simpa using hr
  simp only [dataAfter, s.fetched_setReg v hpc hir hmar, executeOp_setReg cfg hpc hpsw hn,
    memoryOp_setReg hmar hmdr hn, Option.map_map]
  rfl

/-! ### What a run from a ready state leaves -/

theorem exec_next_of_ready {i : Instr} {s t : State} (hr : s.ready) (h : exec i s = .next t) :
    ∃ d, dataAfter settings i s = some d ∧ t = completedState i s d := by
  rw [exec_cases, ignoresStart_of_ready hr] at h
  cases hd : dataAfter settings i s with
  | none => simp [hd] at h
  | some d => exact ⟨d, rfl, by simpa [hd] using h.symm⟩

theorem exec_setReg {i : Instr} {r : Reg} {s t : State} (hr : r ∉ [Reg.pc, .ir, .mar, .mdr, .psw]) (hs : s.ready)
    (hn : ∀ o ∈ i.operands, ¬ o.names r) (h : exec i s = .next t) (v : Word) :
    exec i (s.setReg r v) = .next (t.setReg r v) := by
  obtain ⟨d, hd, rfl⟩ := exec_next_of_ready hs h
  exact exec_of_dataAfter (d := (d.1.set r v, d.2)) hs (by rw [dataAfter_setReg settings hr hn, hd]; rfl)

theorem State.reset_get_of_ne_sp {r : Reg} (h : r ≠ .sp) : State.reset.regs.get r = 0 := by
  cases r with
  | sp => exact absurd rfl h
  | _ => rfl

/-- Settles O18. That the register keeps its value is the noninterference itself, for the value it holds. -/
theorem unnamedGeneralRegistersAndSpAreUntouched : Obligations.UnnamedGeneralRegistersAndSpAreUntouched := by
  refine ⟨fun i r s t v hr hs hn h => ⟨?_, exec_setReg hr hs hn h v⟩, rfl, fun _ => State.reset_get_of_ne_sp⟩
  have hsame := exec_setReg hr hs hn h (s.getReg r)
  rw [State.setReg_getReg_self, h, Host.Outcome.next.injEq] at hsame
  calc t.regs.get r = (t.setReg r (s.getReg r)).regs.get r := congrArg (fun u => u.regs.get r) hsame
    _ = s.regs.get r := Regs.get_set_self _ _ _

/-! ### The implicit writers of MAR and MDR (R33) -/

theorem writeOperand_get_of_ne {dst : Operand} {r : Reg} (h : dst ≠ .reg r) (v : Word) (s : State) :
    (writeOperand dst v s).regs.get r = s.regs.get r := by
  cases dst with
  | imm _ => rfl
  | dir _ => rfl
  | ind _ => rfl
  | reg q => exact Regs.get_set_ne _ _ fun e => h (e ▸ rfl)

/-- EXECUTE writes its destination, PC and PSW, and no other register. -/
theorem executeOp_get_of_ne_destination (cfg : Config) {i : Instr} {r : Reg} (hpc : r ≠ .pc) (hpsw : r ≠ .psw)
    (hd : i.destination ≠ some (.reg r)) (s : State) : (executeOp cfg i s).regs.get r = s.regs.get r := by
  have hpcWrite (v : Word) : (s.setReg .pc v).regs.get r = s.regs.get r := Regs.get_set_ne _ _ hpc
  cases i with
  | nop => rfl
  | load _ _ => rfl
  | store _ _ => rfl
  | add d _ _ | sub d _ _ | mul d _ _ | mov d _ =>
    exact writeOperand_get_of_ne (fun e => hd (congrArg some e)) _ s
  | div d _ _ =>
    simp only [executeOp, divOp]
    split
    · rfl
    · exact writeOperand_get_of_ne (fun e => hd (congrArg some e)) _ s
  | cmp _ _ => exact Regs.get_set_ne _ _ hpsw
  | jmp _ => exact hpcWrite _
  | jz _ =>
    simp only [executeOp, jzOp]
    split
    · exact hpcWrite _
    · rfl
  | jnz _ =>
    simp only [executeOp, jnzOp]
    split
    · rfl
    · exact hpcWrite _

theorem memoryOp_eq_noMemory {i : Instr} (hl : i.type ≠ .load) (hs : i.type ≠ .store) : memoryOp i = noMemory := by
  cases i with
  | load _ _ => exact absurd rfl hl
  | store _ _ => exact absurd rfl hs
  | _ => rfl

/-- LOAD leaves MAR and MDR as MEMORY stages them, unless one of them is its destination. -/
theorem load_marMdr {dst addr : Operand} {s : State} {ea : Word} {d : Regs × Memory}
    (ha : effAddr addr s.fetched = some ea) (hd : dataAfter settings (.load dst addr) s = some d) :
    (dst ≠ .reg .mar → d.1.mar = ea) ∧ (dst ≠ .reg .mdr → d.1.mdr = s.mem.read ea) := by
  rw [dataAfter_load settings ha dst] at hd
  obtain rfl := Option.some.inj hd
  exact ⟨fun h => writeOperand_get_of_ne h _ _, fun h => writeOperand_get_of_ne h _ _⟩

/-- STORE leaves the address in MAR, and the same word in MDR and in the cell. -/
theorem store_marMdr {src addr : Operand} {s : State} {ea : Word} {d : Regs × Memory} (hw : s.mem.wf)
    (ha : effAddr addr s.fetched = some ea) (hd : dataAfter settings (.store src addr) s = some d) :
    d.1.mar = ea ∧ d.2.read ea = d.1.mdr := by
  rw [dataAfter_store settings ha src] at hd
  obtain rfl := Option.some.inj hd
  exact ⟨rfl, (Memory.write_storedAt hw _ _).1⟩

/-- A type with no MEMORY operation leaves MAR and MDR as FETCH does, unless one of them is its destination. -/
theorem noMemory_marMdr {i : Instr} {s : State} {d : Regs × Memory} (hm : memoryOp i = noMemory)
    (hd : dataAfter settings i s = some d) :
    (i.destination ≠ some (.reg .mar) → d.1.mar = s.regs.pc)
      ∧ (i.destination ≠ some (.reg .mdr) → d.1.mdr = s.regs.mdr) := by
  rw [dataAfter_of_noMemory settings hm] at hd
  obtain rfl := Option.some.inj hd
  exact ⟨fun h => executeOp_get_of_ne_destination settings (r := .mar) (by decide) (by decide) h s.fetched,
    fun h => executeOp_get_of_ne_destination settings (r := .mdr) (by decide) (by decide) h s.fetched⟩

/-- Settles O17, one lemma for LOAD, one for STORE and one for the types that do nothing in MEMORY. -/
theorem marAndMdrFollowFetchLoadAndStore : Obligations.MarAndMdrFollowFetchLoadAndStore := by
  intro i s t hr hw h
  obtain ⟨d, hd, rfl⟩ := exec_next_of_ready hr h
  refine ⟨?_, ?_, fun hl hs => noMemory_marMdr (memoryOp_eq_noMemory hl hs) hd⟩
  · rintro dst addr ea rfl ha
    exact load_marMdr ha hd
  · rintro src addr ea rfl ha
    exact store_marMdr hw ha hd

/-! ### The data of a run depends on registers and memory alone -/

theorem ActsOnData.data_congr {op : State → State} (h : ActsOnData op) {s t : State} (hr : s.regs = t.regs)
    (hm : s.mem = t.mem) : ((op s).regs, (op s).mem) = ((op t).regs, (op t).mem) :=
  let ⟨hregs, hmem, _⟩ := h s t hr hm
  Prod.ext hregs hmem

theorem dataAfter_congr {s t : State} (hr : s.regs = t.regs) (hm : s.mem = t.mem) (cfg : Config) (i : Instr) :
    dataAfter cfg i s = dataAfter cfg i t := by
  obtain ⟨her, hem, -⟩ := executeOp_actsOnData cfg i s.fetched t.fetched (by simp [hr, hm]) hm
  exact (memoryOp_actsOnData i _ _ her hem).1

theorem executeOp_decodeSignals (cfg : Config) (table : InstrType → ControlSignals) (i : Instr) :
    executeOp { cfg with decodeSignals := table } i = executeOp cfg i := by
  cases i <;> rfl

/-- No run reads a control signal or the table DECODE derives them from (R39). -/
theorem runWith_signals (cfg : Config) (table : InstrType → ControlSignals) (i : Instr) (s : State)
    (σ : ControlSignals) :
    runWith { cfg with decodeSignals := table } i { s with signals := σ } = runWith cfg i s := by
  have hd : dataAfter { cfg with decodeSignals := table } i { s with signals := σ } = dataAfter cfg i s :=
    calc dataAfter { cfg with decodeSignals := table } i { s with signals := σ }
      _ = dataAfter { cfg with decodeSignals := table } i s :=
        dataAfter_congr (s := { s with signals := σ }) (t := s) rfl rfl _ i
      _ = dataAfter cfg i s := by simp only [dataAfter, executeOp_decodeSignals]
  rw [runWith_eq, runWith_eq, hd]
  rfl

/-! ### One tick is one phase (R131) -/

/-- The whole of one phase of the instruction in flight; `none` where its MEMORY operation has no address. -/
def performPhase (i : Instr) (p : Phase) (s : State) : Option State :=
  match p with
  | .fetch => some (fetchPhase s)
  | .decode => some (decodePhase settings i s)
  | .execute => some (executePhase (executeOp settings i) s)
  | .memory => memoryPhase i (memoryOp i) s
  | .writeback => some (writebackPhase i s)

/-- Everything a tick that leaves a state can do: nothing between runs, the next phase during one. -/
theorem tick_eq_next_iff {s t : State} :
    tick s = .next t ↔ (s.running = false ∧ t = s) ∨
      (s.running = true ∧ ∃ i p,
        s.cur = some i ∧ nextPhase s.stepIndex = some p ∧ performPhase i p s = some t) := by
  cases hrun : s.running with
  | false => simp [tick, hrun, eq_comm]
  | true =>
    cases hc : s.cur with
    | none => simp [tick, hrun, hc]
    | some i =>
      cases hp : nextPhase s.stepIndex with
      | none => simp [tick, hrun, hc, hp]
      | some p =>
        cases p with
        | memory => cases hm : memoryPhase i (memoryOp i) s <;> simp [tick, hrun, hc, hp, performPhase, hm]
        | _ => simp [tick, hrun, hc, hp, performPhase]

/-! ### What each phase leaves in registers, memory and the component activations -/

@[simp] theorem fetchPhase_regs (s : State) : (fetchPhase s).regs = s.fetched.regs := rfl
@[simp] theorem fetchPhase_mem (s : State) : (fetchPhase s).mem = s.mem := rfl
@[simp] theorem decodePhase_regs (cfg : Config) (i : Instr) (s : State) : (decodePhase cfg i s).regs = s.regs := rfl
@[simp] theorem decodePhase_mem (cfg : Config) (i : Instr) (s : State) : (decodePhase cfg i s).mem = s.mem := rfl

@[simp] theorem writebackPhase_regs (i : Instr) (s : State) : (writebackPhase i s).regs = s.regs := by
  unfold writebackPhase writebackBody
  split <;> rfl

@[simp] theorem writebackPhase_mem (i : Instr) (s : State) : (writebackPhase i s).mem = s.mem := by
  unfold writebackPhase writebackBody
  split <;> rfl

@[simp] theorem fetchPhase_active (s : State) : (fetchPhase s).active = Components.none := rfl
@[simp] theorem decodePhase_active (cfg : Config) (i : Instr) (s : State) :
    (decodePhase cfg i s).active = Components.none := rfl
@[simp] theorem executePhase_active (op : State → State) (s : State) :
    (executePhase op s).active = Components.none := rfl
@[simp] theorem writebackPhase_active (i : Instr) (s : State) : (writebackPhase i s).active = Components.none := rfl

theorem memoryPhase_active {i : Instr} {op : State → Option State} {s t : State} (h : memoryPhase i op s = some t) :
    t.active = Components.none := by
  obtain ⟨_, -, rfl⟩ := Option.map_eq_some_iff.mp h
  rfl

theorem performPhase_active {i : Instr} {p : Phase} {s t : State} (h : performPhase i p s = some t) :
    t.active = Components.none := by
  cases p with
  | memory => exact memoryPhase_active h
  | _ => obtain rfl := Option.some.inj h; rfl

/-- The registers and memory a phase leaves depend on registers and memory alone. -/
theorem performPhase_data_congr {s t : State} (hr : s.regs = t.regs) (hm : s.mem = t.mem) (i : Instr) (p : Phase) :
    (performPhase i p s).map (fun u => (u.regs, u.mem)) = (performPhase i p t).map fun u => (u.regs, u.mem) := by
  cases p with
  | fetch => simp [performPhase, hr, hm]
  | decode => simp [performPhase, hr, hm]
  | execute =>
    simp only [performPhase, executePhase, executeBody, Option.map_some, deactAll_regs, deactAll_mem]
    exact congrArg some
      ((executeOp_actsOnData settings i).data_congr (s := beginPhase .execute _ s) (t := beginPhase .execute _ t) hr hm)
  | memory =>
    simp only [performPhase, memoryPhase, memoryBody, Option.map_map]
    exact (memoryOp_actsOnData i (beginPhase .memory _ s) (beginPhase .memory _ t) hr hm).1
  | writeback => simp [performPhase, hr, hm]

theorem tick_signals {s t : State} (σ : ControlSignals) (h : tick s = .next t) :
    ∃ u : State, tick { s with signals := σ } = .next u ∧ u.regs = t.regs ∧ u.mem = t.mem := by
  rcases tick_eq_next_iff.mp h with ⟨hrun, rfl⟩ | ⟨hrun, i, p, hc, hp, ht⟩
  · exact ⟨_, tick_eq_next_iff.mpr (.inl ⟨hrun, rfl⟩), rfl, rfl⟩
  · have hdata := performPhase_data_congr (s := { s with signals := σ }) (t := s) rfl rfl i p
    rw [ht] at hdata
    obtain ⟨u, hu, he⟩ := Option.map_eq_some_iff.mp hdata
    obtain ⟨hregs, hmem⟩ := Prod.mk.inj he
    exact ⟨u, tick_eq_next_iff.mpr (.inr ⟨hrun, i, p, hc, hp, hu⟩), hregs, hmem⟩

/-- Settles O23: a run by the data it leaves, a tick by the phase it performs. -/
theorem controlSignalsGateNothing : Obligations.ControlSignalsGateNothing :=
  ⟨runWith_signals, fun _ _ σ h => tick_signals σ h⟩

/-! ### Component activations (R43) -/

@[simp] theorem executeOp_active (cfg : Config) (i : Instr) (s : State) : (executeOp cfg i s).active = s.active := by
  obtain ⟨-, -, hframe⟩ := executeOp_actsOnData cfg i s s rfl rfl
  rw [hframe]

theorem memoryOp_active {i : Instr} {s t : State} (h : memoryOp i s = some t) : t.active = s.active := by
  rw [(memoryOp_actsOnData i s s rfl rfl).2 t h]

theorem memoryComponents_eq_none {y : InstrType} (hl : y ≠ .load) (hs : y ≠ .store) :
    memoryComponents y = Components.none := by
  cases y with
  | load => exact absurd rfl hl
  | store => exact absurd rfl hs
  | _ => rfl

theorem writebackBody_active (i : Instr) (s : State) :
    (writebackBody i s).active =
      if writesRegister i.type then { Components.none with rf := true } else Components.none := by
  unfold writebackBody
  split <;> rfl

/-- The components the five records of a trace show (R135 to R140). -/
theorem runTrace_active {cfg : Config} {i : Instr} {s : State} {l : List TraceRecord} (h : runTrace cfg i s = some l) :
    l.map TraceRecord.active =
      [{ Components.none with cu := true, mem := true, bus := true }, { Components.none with cu := true, rf := true },
       { Components.none with alu := true, cu := true }, memoryComponents i.type,
       if writesRegister i.type then { Components.none with rf := true } else Components.none] := by
  obtain ⟨m, hm, rfl⟩ := Option.map_eq_some_iff.mp h
  simp only [List.map, recordOf, memoryOp_active hm, writebackBody_active, executeBody, executeOp_active,
    beginPhase_active]
  rfl

/-- No run reads a component activation (R43). -/
theorem exec_active_irrelevant (i : Instr) {s : State} (hs : s.ready) (a : Components) :
    exec i { s with active := a } = exec i s := by
  have ha : State.ready { s with active := a } := hs
  rw [exec_cases, exec_cases, ignoresStart_of_ready hs, ignoresStart_of_ready ha,
    dataAfter_congr (s := { s with active := a }) (t := s) rfl rfl settings i]
  rfl

/-! ### What a step that leaves a state can do -/

theorem exec_eq_next {i : Instr} {s t : State} (h : exec i s = .next t) :
    (s.ignoresStart = true ∧ t = s) ∨
      (s.ignoresStart = false ∧ ∃ d, dataAfter settings i s = some d ∧ t = completedState i s d) := by
  cases hg : s.ignoresStart with
  | true => rw [exec_cases, hg] at h; exact .inl ⟨rfl, by simpa using h.symm⟩
  | false =>
    have hs : s.ready := by by_contra hn; simp [ignoresStart_of_not_ready hn] at hg
    exact .inr ⟨rfl, exec_next_of_ready hs h⟩

theorem acceptPort_eq_next {p : Port} {accepted : Instr → State → Host.Outcome State Fault Refusal} {s t : State}
    (h : acceptPort p accepted s = .next t) :
    (s.ignoresStart = true ∧ t = s) ∨
      (s.ignoresStart = false ∧ ∃ c, decodePort p = .error (.precondition c) ∧ t = s.raisePreconditionFault c) ∨
      (s.ignoresStart = false ∧ ∃ i, decodePort p = .ok i ∧ accepted i s = .next t) := by
  unfold acceptPort at h
  split at h
  · next hg => exact .inl ⟨hg, (Host.Outcome.next.inj h).symm⟩
  · next hg =>
    rw [Bool.not_eq_true] at hg
    split at h
    · next i hp => exact .inr (.inr ⟨hg, i, hp, h⟩)
    · next c hp => exact .inr (.inl ⟨hg, c, hp, (Host.Outcome.next.inj h).symm⟩)
    · cases h

theorem startRun_eq_next {i : Instr} {s t : State} (h : startRun i s = .next t) :
    i.wf = true ∧ t = enterRun i s := by
  unfold startRun at h
  split at h
  · next hw => exact ⟨hw, (Host.Outcome.next.inj h).symm⟩
  · cases h

theorem hostQuiet_eq_next {s t : State} (h : hostQuiet s = .next t) :
    t = s ∨ (s.ignoresStart = false ∧ ∃ i, supplyPC s.program s.regs.pc = some i ∧ exec i s = .next t) := by
  unfold hostQuiet at h
  split at h
  · exact .inl (Host.Outcome.next.inj h).symm
  · next hg =>
    split at h
    · next i hi => exact .inr ⟨by simpa using hg, i, hi, h⟩
    · exact .inl (Host.Outcome.next.inj h).symm

/-! ### Every input of the host keeps the components inactive -/

section Inactive

variable {s t : State} (hs : s.active = Components.none)
include hs

theorem exec_keeps_inactive {i : Instr} (h : exec i s = .next t) : t.active = Components.none := by
  rcases exec_eq_next h with ⟨-, rfl⟩ | ⟨-, _, -, rfl⟩
  · exact hs
  · rfl

theorem acceptPort_keeps_inactive {p : Port} {accepted : Instr → State → Host.Outcome State Fault Refusal}
    (hacc : ∀ i, accepted i s = .next t → t.active = Components.none) (h : acceptPort p accepted s = .next t) :
    t.active = Components.none := by
  rcases acceptPort_eq_next h with ⟨-, rfl⟩ | ⟨-, _, -, rfl⟩ | ⟨-, i, -, hi⟩
  · exact hs
  · exact hs
  · exact hacc i hi

theorem startRun_keeps_inactive {i : Instr} (h : startRun i s = .next t) : t.active = Components.none := by
  obtain ⟨-, rfl⟩ := startRun_eq_next h
  exact hs

theorem tick_keeps_inactive (h : tick s = .next t) : t.active = Components.none := by
  rcases tick_eq_next_iff.mp h with ⟨-, rfl⟩ | ⟨-, _, _, -, -, hp⟩
  · exact hs
  · exact performPhase_active hp

theorem abortRun_keeps_inactive : (abortRun s).active = Components.none := by
  unfold abortRun
  split <;> exact hs

theorem hostEvent_keeps_inactive {e : HostEvent} (h : hostEvent e s = .next t) : t.active = Components.none := by
  cases e with
  | run p => exact acceptPort_keeps_inactive hs (fun _ => exec_keeps_inactive hs) h
  | start p => exact acceptPort_keeps_inactive hs (fun _ => startRun_keeps_inactive hs) h
  | tick => exact tick_keeps_inactive hs h
  | abort => obtain rfl := Host.Outcome.next.inj h; exact abortRun_keeps_inactive hs
  | reset => obtain rfl := Host.Outcome.next.inj h; rfl

theorem hostQuiet_keeps_inactive (h : hostQuiet s = .next t) : t.active = Components.none := by
  rcases hostQuiet_eq_next h with rfl | ⟨-, i, -, hi⟩
  · exact hs
  · exact exec_keeps_inactive hs hi

theorem step_keeps_inactive (h : step s = .next t) : t.active = Components.none := by
  unfold step hostStep at h
  split at h
  · next e rest _ => exact hostEvent_keeps_inactive (s := { s with inbox := rest }) hs h
  · exact hostQuiet_keeps_inactive hs h

end Inactive

/-- Settles O29, the step clause by one lemma for each input of the host. -/
theorem componentsInactiveAtEveryPhaseBoundary : Obligations.ComponentsInactiveAtEveryPhaseBoundary :=
  ⟨fun s cfg i e _ => ⟨fetchPhase_active s, decodePhase_active cfg i s, executePhase_active e s,
      fun _ => memoryPhase_active, writebackPhase_active i s⟩,
    fun i _ _ h => ⟨memoryComponents i.type, runTrace_active h, memoryComponents_eq_none⟩,
    fun _ _ => step_keeps_inactive, State.reset_active, fun i _ a hs => exec_active_irrelevant i hs a⟩

end Sys2Proof.Machine

/-! SUPPORT. The memory family (spec/20_memory.md): what a read sees of a write (R61). -/

namespace Sys2Proof.Machine

/-- A store at an address is read back there. -/
theorem Memory.read_write_self {m : Memory} (h : m.wf) (a v : Word) : (m.write a v).read a = v := by
  obtain ⟨hread, -, -⟩ := Memory.write_storedAt h a v
  exact hread

/-- A store changes no cell at another address, from any list of cells. -/
theorem Memory.read_write_of_ne (m : Memory) {a b : Word} (v : Word) (h : b ≠ a) :
    (m.write a v).read b = m.read b := by
  obtain ⟨-, hframe⟩ := m.write_storedOnlyAt a v
  exact hframe b h

/-- Settles O41. Only the cell stored to needs the canonical form: in a list that held an address twice,
storing 0 there would uncover the second entry. -/
theorem cellsAreIndependent : Obligations.CellsAreIndependent := by
  intro m a b v hwf
  split
  · next hba =>
    subst hba
    exact Memory.read_write_self hwf b v
  · next hba => exact m.read_write_of_ne v hba

end Sys2Proof.Machine

/-! SUPPORT. The encoding family (spec/30_encoding.md): the opcode byte, the operand bytes and the type of a
display word (R100, R101). -/

namespace Sys2Proof

/-! ### The opcode byte selects the type (R101) -/

/-- The twelve opcode bytes are distinct: each is found as its own type's. -/
@[simp] theorem InstrType.ofOpcode_opcode (t : InstrType) : InstrType.ofOpcode t.opcode = some t := by
  cases t <;> rfl

theorem Instr.operands_length (i : Instr) : i.operands.length = i.type.arity := by
  cases i <;> rfl

/-! ### The display word as a number (R100) -/

/-- The byte the display word has for operand `k`; 0 where the type has no operand `k`. -/
def Instr.operandByte (i : Instr) (k : Nat) : BitVec 8 := (i.operands[k]?.map Operand.byte).getD 0

theorem Instr.operandByte_of_arity_le {i : Instr} {k : Nat} (h : i.type.arity ≤ k) : i.operandByte k = 0#8 := by
  rw [← i.operands_length] at h
  simp [Instr.operandByte, h]

theorem encode_eq_or (i : Instr) :
    encode i = i.type.opcode.setWidth 32 <<< 24 ||| (i.operandByte 0).setWidth 32 <<< 16
      ||| (i.operandByte 1).setWidth 32 <<< 8 := rfl

/-- A byte moved up within the word loses no bit. -/
theorem toNat_byte_shiftLeft (b : BitVec 8) {n : Nat} (hn : n ≤ 24) :
    (b.setWidth 32 <<< n).toNat = b.toNat <<< n := by
  have hlt : b.toNat <<< n < 2 ^ 32 := by
    calc b.toNat <<< n = b.toNat * 2 ^ n := Nat.shiftLeft_eq _ _
      _ < 2 ^ 8 * 2 ^ n := Nat.mul_lt_mul_of_pos_right b.isLt (Nat.two_pow_pos n)
      _ = 2 ^ (8 + n) := (Nat.pow_add 2 8 n).symm
      _ ≤ 2 ^ 32 := Nat.pow_le_pow_right (by decide) (by omega)
  rw [BitVec.toNat_shiftLeft, BitVec.toNat_setWidth_of_le (by decide), Nat.mod_eq_of_lt hlt]

/-- The bytes of R100 do not overlap, so joining them adds them. -/
theorem encode_toNat (i : Instr) :
    (encode i).toNat
      = i.type.opcode.toNat * 2 ^ 24 + (i.operandByte 0).toNat * 2 ^ 16 + (i.operandByte 1).toNat * 2 ^ 8 := by
  have hb : (i.operandByte 1).toNat <<< 8 < 2 ^ 16 := by
    have := (i.operandByte 1).isLt
    omega
  have ha : (i.operandByte 0).toNat <<< 16 + (i.operandByte 1).toNat <<< 8 < 2 ^ 24 := by
    have := (i.operandByte 0).isLt
    omega
  calc (encode i).toNat
      = i.type.opcode.toNat <<< 24 ||| ((i.operandByte 0).toNat <<< 16 ||| (i.operandByte 1).toNat <<< 8) := by
        simp only [encode_eq_or, BitVec.toNat_or, toNat_byte_shiftLeft, Nat.or_assoc, Nat.reduceLeDiff]
    _ = i.type.opcode.toNat <<< 24 + ((i.operandByte 0).toNat <<< 16 + (i.operandByte 1).toNat <<< 8) := by
        rw [← Nat.shiftLeft_add_eq_or_of_lt hb, ← Nat.shiftLeft_add_eq_or_of_lt ha]
    _ = _ := by simp only [Nat.shiftLeft_eq, Nat.add_assoc]

/-- Bits 31:24 of the display word are the opcode byte. -/
theorem encode_toNat_div_top (i : Instr) : (encode i).toNat / 2 ^ 24 = i.type.opcode.toNat := by
  have ha := (i.operandByte 0).isLt
  have hb := (i.operandByte 1).isLt
  rw [encode_toNat]
  omega

/-- Bits 7:0 of the display word are 0. -/
theorem encode_toNat_mod_low (i : Instr) : (encode i).toNat % 2 ^ 8 = 0 := by
  rw [encode_toNat]
  omega

theorem encode_toNat_mod_of_arity_zero {i : Instr} (h : i.type.arity = 0) : (encode i).toNat % 2 ^ 24 = 0 := by
  have ha : i.operandByte 0 = 0#8 := Instr.operandByte_of_arity_le (by omega)
  have hb : i.operandByte 1 = 0#8 := Instr.operandByte_of_arity_le (by omega)
  rw [encode_toNat, ha, hb, BitVec.toNat_zero]
  omega

theorem encode_toNat_mod_of_arity_one {i : Instr} (h : i.type.arity = 1) : (encode i).toNat % 2 ^ 16 = 0 := by
  have hb : i.operandByte 1 = 0#8 := Instr.operandByte_of_arity_le (by omega)
  rw [encode_toNat, hb, BitVec.toNat_zero]
  omega

/-- The display word alone tells the type of its instruction, by its top byte. -/
@[simp] theorem wordType_encode (i : Instr) : wordType (encode i) = some i.type := by
  have htop : (encode i).extractLsb' 24 8 = i.type.opcode := by
    apply BitVec.eq_of_toNat_eq
    rw [BitVec.extractLsb'_toNat, Nat.shiftRight_eq_div_pow, encode_toNat_div_top,
      Nat.mod_eq_of_lt i.type.opcode.isLt]
  rw [wordType, htop, InstrType.ofOpcode_opcode]

/-- Settles O50: the display word is its bytes side by side, the opcode byte on top, and a byte the format
has no operand for is 0. -/
theorem opcodeByteOfEachType : Obligations.OpcodeByteOfEachType := by
  intro i
  refine ⟨wordType_encode i, encode_toNat_mod_of_arity_zero, encode_toNat_mod_of_arity_one,
    encode_toNat_mod_low i, ?_⟩
  rw [encode_toNat_div_top]
  cases i.type <;> rfl

end Sys2Proof

/-! SUPPORT. The phase family (spec/40_phase_engine.md): FETCH (R135) and WRITEBACK (R140) as one update of the
state each. -/

namespace Sys2Proof.Machine

/-! ### FETCH (R135) -/

/-- FETCH as one update: what `State.fetched` shows, the phase, and the three signals. -/
theorem fetchPhase_eq (s : State) :
    fetchPhase s =
      { s.fetched with
        phase := .fetch
        stepIndex := 1
        active := Components.none
        signals := { s.signals with memRead := true, pcWrite := true, irWrite := true } } := rfl

theorem fetchBody_active (s : State) :
    (fetchBody s).active = { Components.none with cu := true, mem := true, bus := true } := rfl

/-- FETCH advances PC by 4, modulo 2^32. -/
theorem State.fetched_pc_isMask32 (s : State) : IsMask32 s.fetched.regs.pc (s.regs.pc.toNat + 4) := by
  have hadd : s.fetched.regs.pc = mask32 (s.regs.pc.toNat + 4) := (addWords_eq s.regs.pc 4).symm
  rw [hadd]
  exact mask32_isMask32 _

theorem State.fetched_get_of_ne (s : State) {r : Reg} (hmar : r ≠ .mar) (hir : r ≠ .ir) (hpc : r ≠ .pc) :
    s.fetched.regs.get r = s.regs.get r := by
  rw [State.fetched_eq_setReg]
  calc (((s.setReg .mar _).setReg .ir _).setReg .pc _).getReg r
      = ((s.setReg .mar _).setReg .ir _).getReg r := State.getReg_setReg_ne _ _ hpc
    _ = (s.setReg .mar _).getReg r := State.getReg_setReg_ne _ _ hir
    _ = s.getReg r := State.getReg_setReg_ne _ _ hmar

/-- Settles O27. Every field is read off FETCH's one update; PC needs the arithmetic, and the other registers
that the three writes miss them. -/
theorem fetchPhaseEffect : Obligations.FetchPhaseEffect := by
  intro s
  rw [fetchPhase_eq]
  exact ⟨rfl, rfl, fetchBody_active s, rfl, rfl, rfl, rfl, s.fetched_pc_isMask32,
    fun _ => s.fetched_get_of_ne, rfl, rfl⟩

/-! ### WRITEBACK (R140) -/

/-- WRITEBACK as one update: the type decides the register file's activation and whether register-write is
asserted, and nothing else. -/
theorem writebackBody_eq (i : Instr) (s : State) :
    writebackBody i s =
      { s with
        phase := .writeback
        stepIndex := 5
        active := { Components.none with rf := writesRegister i.type }
        signals := { s.signals with regWrite := writesRegister i.type || s.signals.regWrite } } := by
  unfold writebackBody
  cases writesRegister i.type <;> rfl

theorem writesRegister_eq_true_iff (y : InstrType) :
    writesRegister y = true ↔ y ∈ [InstrType.load, .add, .sub, .mul, .div, .mov] := by
  cases y <;> decide

theorem writesRegister_eq_false_iff (y : InstrType) :
    writesRegister y = false ↔ y ∈ [InstrType.store, .cmp, .jmp, .jz, .jnz, .nop] := by
  cases y <;> decide

/-- Settles O28. The two lists of types are the two values of `writesRegister`. -/
theorem writebackIsOnlyAMarker : Obligations.WritebackIsOnlyAMarker := by
  intro i s
  rw [writebackBody_eq, ← writesRegister_eq_true_iff, ← writesRegister_eq_false_iff]
  refine ⟨rfl, rfl, rfl, rfl, fun hw => ?_, fun hw => ?_, rfl⟩
  · rw [hw]
    exact ⟨rfl, rfl⟩
  · rw [hw]
    exact ⟨rfl, rfl⟩

end Sys2Proof.Machine

/-! SUPPORT. The whole machine: what a phase and a step of the host can do, each said once, and what every step
keeps (spec/10_state.md R34 to R37, spec/40_phase_engine.md R131 to R143, spec/60_exceptions.md). -/

namespace Sys2Proof.Machine

/-! ### What EXECUTE and MEMORY can do -/

/-- EXECUTE of any type does nothing, writes the destination, jumps, or sets the flags of CMP (R138). -/
theorem executeOp_cases (cfg : Config) (i : Instr) (s : State) :
    executeOp cfg i s = s
      ∨ (∃ d v, i.destination = some d ∧ executeOp cfg i s = writeOperand d v s)
      ∨ (∃ v, executeOp cfg i s = s.setReg .pc v)
      ∨ (i.type = .cmp ∧ ∃ v, executeOp cfg i s = s.setReg .psw v) := by
  cases i with
  | nop => exact .inl rfl
  | load _ _ => exact .inl rfl
  | store _ _ => exact .inl rfl
  | add d _ _ | sub d _ _ | mul d _ _ | mov d _ => exact .inr (.inl ⟨d, _, rfl, rfl⟩)
  | div d _ _ =>
    simp only [executeOp, divOp]
    split
    · exact .inl rfl
    · exact .inr (.inl ⟨d, _, rfl, rfl⟩)
  | cmp _ _ => exact .inr (.inr (.inr ⟨rfl, _, rfl⟩))
  | jmp _ => exact .inr (.inr (.inl ⟨_, rfl⟩))
  | jz _ =>
    simp only [executeOp, jzOp]
    split
    · exact .inr (.inr (.inl ⟨_, rfl⟩))
    · exact .inl rfl
  | jnz _ =>
    simp only [executeOp, jnzOp]
    split
    · exact .inl rfl
    · exact .inr (.inr (.inl ⟨_, rfl⟩))

theorem executeOp_frame (cfg : Config) (i : Instr) (s : State) :
    executeOp cfg i s = { s with regs := (executeOp cfg i s).regs, mem := (executeOp cfg i s).mem } := by
  obtain ⟨-, -, hframe⟩ := executeOp_actsOnData cfg i s s rfl rfl
  exact hframe

theorem memoryOp_frame {i : Instr} {s t : State} (h : memoryOp i s = some t) :
    t = { s with regs := t.regs, mem := t.mem } := by
  obtain ⟨-, hframe⟩ := memoryOp_actsOnData i s s rfl rfl
  exact hframe t h

theorem executeOp_wf {s : State} (hw : s.mem.wf) (cfg : Config) (i : Instr) : (executeOp cfg i s).mem.wf := by
  rcases executeOp_cases cfg i s with h | ⟨d, v, -, h⟩ | ⟨v, h⟩ | ⟨-, v, h⟩
  · rw [h]; exact hw
  · rw [h]; exact writeOperand_wf hw d v
  · rw [h]; exact hw
  · rw [h]; exact hw

theorem memoryOp_wf {i : Instr} {s t : State} (hw : s.mem.wf) (h : memoryOp i s = some t) : t.mem.wf := by
  cases i with
  | load d a =>
    obtain ⟨ea, -, rfl⟩ := Option.map_eq_some_iff.mp h
    exact writeOperand_wf (s := (s.setReg .mar ea).setReg .mdr _) hw d _
  | store v a =>
    obtain ⟨ea, -, rfl⟩ := Option.map_eq_some_iff.mp h
    exact Memory.write_wf hw _ _
  | _ => obtain rfl := Option.some.inj h; exact hw

/-- A run keeps the canonical form of memory. -/
theorem dataAfter_wf {cfg : Config} {i : Instr} {s : State} {d : Regs × Memory} (hw : s.mem.wf)
    (h : dataAfter cfg i s = some d) : d.2.wf := by
  obtain ⟨u, hu, rfl⟩ := Option.map_eq_some_iff.mp h
  exact memoryOp_wf (executeOp_wf (s := s.fetched) hw cfg i) hu

/-- A run has an end exactly for a well-formed instruction (R94, R152). -/
theorem dataAfter_isSome (cfg : Config) (i : Instr) (s : State) : (dataAfter cfg i s).isSome = i.wf := by
  rw [dataAfter, Option.isSome_map, memoryOp_isSome]

/-! ### What a phase can do -/

/-- A phase acts on registers, memory and signals, shows its own name and number, leaves every component
inactive, and ends the run if it is WRITEBACK; it changes nothing else (R134, R141). -/
theorem performPhase_frame {i : Instr} {p : Phase} {s t : State} (h : performPhase i p s = some t) :
    t = { s with
      regs := t.regs
      mem := t.mem
      phase := p
      stepIndex := p.number
      running := if p = .writeback then false else s.running
      signals := t.signals
      active := Components.none } := by
  cases p with
  | fetch => obtain rfl := Option.some.inj h; rfl
  | decode => obtain rfl := Option.some.inj h; rfl
  | execute =>
    obtain rfl := Option.some.inj h
    rw [executePhase, executeBody, executeOp_frame]
    rfl
  | memory =>
    obtain ⟨u, hu, rfl⟩ := Option.map_eq_some_iff.mp h
    rw [memoryOp_frame hu]
    rfl
  | writeback =>
    obtain rfl := Option.some.inj h
    rw [writebackPhase, writebackBody_eq]
    rfl

theorem performPhase_wf {i : Instr} {p : Phase} {s t : State} (hw : s.mem.wf) (h : performPhase i p s = some t) :
    t.mem.wf := by
  cases p with
  | execute => obtain rfl := Option.some.inj h; exact executeOp_wf (s := beginPhase _ _ s) hw settings i
  | memory =>
    obtain ⟨u, hu, rfl⟩ := Option.map_eq_some_iff.mp h
    exact memoryOp_wf (s := beginPhase .memory (memoryComponents i.type) s) (t := u) hw hu
  | fetch => obtain rfl := Option.some.inj h; exact hw
  | decode => obtain rfl := Option.some.inj h; exact hw
  | writeback => obtain rfl := Option.some.inj h; rw [writebackPhase_mem]; exact hw

/-- Every phase of a well-formed instruction has an end. -/
theorem performPhase_of_wf {i : Instr} (hw : i.wf = true) (p : Phase) (s : State) :
    ∃ t, performPhase i p s = some t := by
  cases p with
  | memory =>
    apply Option.isSome_iff_exists.mp
    rw [performPhase, memoryPhase, memoryBody, Option.isSome_map, memoryOp_isSome, hw]
  | _ => exact ⟨_, rfl⟩

/-- A phase is left to perform until five are completed (R130). -/
theorem nextPhase_isSome : ∀ n : Fin 6, (nextPhase n).isSome = decide (n.val < 5) := by decide

theorem nextPhase_of_lt {n : Fin 6} (h : n.val < 5) : ∃ p, nextPhase n = some p :=
  Option.isSome_iff_exists.mp ((nextPhase_isSome n).trans (decide_eq_true h))

/-- The phase a tick performs is numbered one above the number of completed phases (R130). -/
theorem nextPhase_number {n : Fin 6} {p : Phase} (h : nextPhase n = some p) : p.number.val = n.val + 1 := by
  revert n p; decide

theorem Phase.number_lt_five {p : Phase} (h : p ≠ .writeback) : p.number.val < 5 := by
  cases p with
  | writeback => exact absurd rfl h
  | _ => decide

/-! ### What a step can do -/

theorem ready_of_ignoresStart_eq_false {s : State} (h : s.ignoresStart = false) : s.ready := by
  by_contra hn
  simp [ignoresStart_of_not_ready hn] at h

/-- The state with its oldest input consumed. -/
def State.consumed (s : State) : State := { s with inbox := s.inbox.tail }

theorem State.consumed_of_nil {s : State} (h : s.inbox = []) : s.consumed = s := by
  rw [State.consumed, h, List.tail_nil, ← h]

/-- Everything the Engine can do in one step: nothing, latch a fault, enter a run, complete a run, perform the
next phase, abandon the run, reset. -/
inductive Effect (s : State) : State → Prop where
  | nothing : Effect s s
  | faults (c : PreconditionCause) (hr : s.ready) : Effect s (s.raisePreconditionFault c)
  | enters (i : Instr) (hr : s.ready) (hw : i.wf = true) : Effect s (enterRun i s)
  | completes (i : Instr) (d : Regs × Memory) (hr : s.ready) (hd : dataAfter settings i s = some d) :
      Effect s (completedState i s d)
  | performs (i : Instr) (p : Phase) (t : State) (hrun : s.running = true) (hcur : s.cur = some i)
      (hp : nextPhase s.stepIndex = some p) (ht : performPhase i p s = some t) : Effect s t
  | abandons : Effect s { s with running := false }
  | resets : Effect s s.resetEngine

theorem exec_effect {i : Instr} {s t : State} (h : exec i s = .next t) : Effect s t := by
  rcases exec_eq_next h with ⟨-, rfl⟩ | ⟨hg, d, hd, rfl⟩
  · exact .nothing
  · exact .completes i d (ready_of_ignoresStart_eq_false hg) hd

theorem acceptPort_effect {p : Port} {accepted : Instr → State → Host.Outcome State Fault Refusal} {s t : State}
    (hacc : ∀ i, s.ready → accepted i s = .next t → Effect s t) (h : acceptPort p accepted s = .next t) :
    Effect s t := by
  rcases acceptPort_eq_next h with ⟨-, rfl⟩ | ⟨hg, c, -, rfl⟩ | ⟨hg, i, -, hi⟩
  · exact .nothing
  · exact .faults c (ready_of_ignoresStart_eq_false hg)
  · exact hacc i (ready_of_ignoresStart_eq_false hg) hi

theorem startRun_effect {i : Instr} {s t : State} (hr : s.ready) (h : startRun i s = .next t) : Effect s t := by
  obtain ⟨hw, rfl⟩ := startRun_eq_next h
  exact .enters i hr hw

theorem tick_effect {s t : State} (h : tick s = .next t) : Effect s t := by
  rcases tick_eq_next_iff.mp h with ⟨-, rfl⟩ | ⟨hrun, i, p, hcur, hp, ht⟩
  · exact .nothing
  · exact .performs i p t hrun hcur hp ht

/-- `abort` leaves `running` clear and everything else as it was, with or without a run (R142, R236). -/
theorem abortRun_eq (s : State) : abortRun s = { s with running := false } := by
  unfold abortRun
  split
  · rfl
  · next h => rw [Bool.not_eq_true] at h; rw [← h]

theorem hostEvent_effect {e : HostEvent} {s t : State} (h : hostEvent e s = .next t) : Effect s t := by
  cases e with
  | run p => exact acceptPort_effect (fun _ _ => exec_effect) h
  | start p => exact acceptPort_effect (fun _ hr => startRun_effect hr) h
  | tick => exact tick_effect h
  | abort => obtain rfl := Host.Outcome.next.inj h; rw [abortRun_eq]; exact .abandons
  | reset => obtain rfl := Host.Outcome.next.inj h; exact .resets

theorem step_of_cons {s : State} {e : HostEvent} {rest : List HostEvent} (h : s.inbox = e :: rest) :
    step s = hostEvent e { s with inbox := rest } := by
  rw [step, hostStep, h]

theorem step_of_nil {s : State} (h : s.inbox = []) : step s = hostQuiet s := by
  rw [step, hostStep, h]

/-- A step that leaves a state consumes the oldest input and has one of the seven effects. -/
theorem step_effect {s t : State} (h : step s = .next t) : Effect s.consumed t := by
  cases hin : s.inbox with
  | cons e rest =>
    have hc : s.consumed = { s with inbox := rest } := by rw [State.consumed, hin, List.tail_cons]
    rw [step_of_cons hin] at h
    rw [hc]
    exact hostEvent_effect h
  | nil =>
    rw [step_of_nil hin] at h
    rw [s.consumed_of_nil hin]
    rcases hostQuiet_eq_next h with rfl | ⟨-, i, -, hi⟩
    · exact .nothing
    · exact exec_effect hi

/-! ### The invariant -/

theorem Effect.keeps_mem_wf {s t : State} (h : Effect s t) (hw : s.mem.wf) : t.mem.wf := by
  cases h with
  | nothing => exact hw
  | faults c _ => exact hw
  | enters i _ _ => exact hw
  | completes i d _ hd => exact dataAfter_wf hw hd
  | performs i p _ _ _ _ ht => exact performPhase_wf hw ht
  | abandons => exact hw
  | resets => exact Memory.empty_wf

theorem Effect.keeps_phaseMatchesStep {s t : State} (h : Effect s t) (hm : s.phaseMatchesStep) :
    t.phaseMatchesStep := by
  cases h with
  | nothing => exact hm
  | faults c _ => exact hm
  | enters i _ _ => exact .inl rfl
  | completes i d _ _ => exact .inr rfl
  | performs i p _ _ _ _ ht => rw [performPhase_frame ht]; exact .inr rfl
  | abandons => exact hm
  | resets => exact .inl rfl

/-- A phase of a run in order leaves it in order: only WRITEBACK is numbered 5, and it ends the run. -/
theorem performPhase_keeps_runInOrder {i : Instr} {p : Phase} {s t : State} (ho : s.runInOrder)
    (ht : performPhase i p s = some t) : t.runInOrder := by
  intro hrun
  rw [performPhase_frame ht] at hrun ⊢
  simp only at hrun
  split at hrun
  · cases hrun
  · next hp =>
    obtain ⟨hcur, -, hf⟩ := ho hrun
    exact ⟨hcur, Phase.number_lt_five hp, hf⟩

theorem Effect.keeps_runInOrder {s t : State} (h : Effect s t) (ho : s.runInOrder) : t.runInOrder := by
  cases h with
  | nothing => exact ho
  | faults c hr =>
    intro (hrun : s.running = true)
    exact absurd (hr.1.symm.trans hrun) (by decide)
  | enters i hr hw => exact fun _ => ⟨congrArg some hw, Nat.succ_pos 4, hr.2⟩
  | completes i d _ _ => exact fun hrun => absurd hrun Bool.false_ne_true
  | performs i p _ _ _ _ ht => exact performPhase_keeps_runInOrder ho ht
  | abandons => exact fun hrun => absurd hrun Bool.false_ne_true
  | resets => exact fun hrun => absurd hrun Bool.false_ne_true

/-- Settles O43: consuming an input leaves the invariant alone, and each of its parts is kept by each of the
seven effects. -/
theorem everyStepKeepsTheInvariant : Obligations.EveryStepKeepsTheInvariant := by
  rintro s t ⟨hw, hm, ho, ha⟩ h
  have he := step_effect h
  exact ⟨he.keeps_mem_wf hw, he.keeps_phaseMatchesStep hm, he.keeps_runInOrder ho, step_keeps_inactive ha h⟩

/-- Settles O44. -/
theorem resetMeetsTheInvariant : Obligations.ResetMeetsTheInvariant :=
  ⟨Memory.empty_wf, .inl rfl, fun hrun => absurd hrun Bool.false_ne_true, rfl⟩

end Sys2Proof.Machine

/-! SUPPORT. The instruction port (spec/30_encoding.md R95, R133): what a lane and a bundle carry, and which
bundles the decoder turns down. -/

namespace Sys2Proof

/-! ### Opcodes and register indices as bijections -/

theorem InstrType.ofOpcode_eq_some_iff {b : BitVec 8} {t : InstrType} :
    InstrType.ofOpcode b = some t ↔ t.opcode = b := by
  constructor
  · intro h
    simpa using List.find?_some h
  · rintro rfl
    exact InstrType.ofOpcode_opcode t

theorem InstrType.ofOpcode_eq_none_iff {b : BitVec 8} :
    InstrType.ofOpcode b = none ↔ ∀ t : InstrType, t.opcode ≠ b := by
  simp only [Option.eq_none_iff_forall_ne_some, ne_eq, InstrType.ofOpcode_eq_some_iff]

theorem Reg.all_map_index : Reg.all.map Reg.index = List.range 14 := by decide

theorem Reg.ofIndex_eq_some_iff {n : Nat} {r : Reg} : Reg.ofIndex n = some r ↔ r.index = n := by
  constructor
  · intro (h : Reg.all[n]? = some r)
    have hi : (Reg.all.map Reg.index)[n]? = some r.index := by rw [List.getElem?_map, h]; rfl
    rw [Reg.all_map_index] at hi
    obtain ⟨_, hn⟩ := List.getElem?_eq_some_iff.mp hi
    rw [← hn, List.getElem_range]
  · rintro rfl
    cases r <;> rfl

/-- The type and the operands decide the instruction, and every instruction has its own (R90, R92). -/
theorem InstrType.build_eq_some_iff {t : InstrType} {ops : List Operand} {i : Instr} :
    t.build ops = some i ↔ i.type = t ∧ i.operands = ops := by
  constructor
  · intro h
    unfold InstrType.build at h
    split at h
    case h_13 => cases h
    all_goals
      obtain rfl := Option.some.inj h
      exact ⟨rfl, rfl⟩
  · rintro ⟨rfl, rfl⟩
    cases i <;> rfl

/-- A type has an instruction for every operand sequence of its arity (R92). -/
theorem InstrType.exists_build {t : InstrType} {ops : List Operand} (h : ops.length = t.arity) :
    ∃ i, t.build ops = some i := by
  cases t with
  | nop => obtain rfl := List.length_eq_zero_iff.mp h; exact ⟨_, rfl⟩
  | jmp | jz | jnz => obtain ⟨_, rfl⟩ := List.length_eq_one_iff.mp h; exact ⟨_, rfl⟩
  | load | store | mov | cmp => obtain ⟨_, _, rfl⟩ := List.length_eq_two.mp h; exact ⟨_, rfl⟩
  | add | sub | mul | div => obtain ⟨_, _, _, rfl⟩ := List.length_eq_three.mp h; exact ⟨_, rfl⟩

theorem InstrType.build_eq_none {t : InstrType} {ops : List Operand} (h : ops.length ≠ t.arity) :
    t.build ops = none := by
  rw [Option.eq_none_iff_forall_ne_some]
  intro i hi
  obtain ⟨rfl, rfl⟩ := InstrType.build_eq_some_iff.mp hi
  exact h i.operands_length

/-! ### Lanes -/

theorem OperandLane.operand_eq_some_iff {l : OperandLane} {o : Operand} : l.operand = some o ↔ l.Carries o := by
  obtain ⟨mode, reg, val⟩ := l
  have hmode : mode = 0 ∨ mode = 1 ∨ mode = 2 ∨ mode = 3 := by revert mode; decide
  rcases hmode with rfl | rfl | rfl | rfl <;>
    cases o <;> simp [OperandLane.operand, OperandLane.Carries, Reg.ofIndex_eq_some_iff, @eq_comm Nat]

theorem OperandLane.operands_eq_some_iff {ls : List OperandLane} {os : List Operand} :
    OperandLane.operands ls = some os ↔ List.Forall₂ OperandLane.Carries ls os := by
  induction ls generalizing os with
  | nil => simp [OperandLane.operands, eq_comm]
  | cons l ls ih =>
    simp only [OperandLane.operands, List.forall₂_cons_left_iff, ← OperandLane.operand_eq_some_iff, ← ih]
    split
    · next o os' ho hos => simp [ho, hos, eq_comm]
    · next hnone =>
      constructor
      · intro h; cases h
      · rintro ⟨o, os', ho, hos, -⟩
        exact absurd hos (hnone o os' ho)

/-- Two lists related member by member, said by positions. -/
theorem forall₂_take_length_iff {α β : Type} {R : α → β → Prop} {as : List α} {bs : List β}
    (h : bs.length ≤ as.length) :
    List.Forall₂ R (as.take bs.length) bs ↔
      ∀ (k : Nat) (a : α) (b : β), as[k]? = some a → bs[k]? = some b → R a b := by
  induction bs generalizing as with
  | nil => simp
  | cons b bs ih =>
    obtain _ | ⟨a, as⟩ := as
    · simp at h
    · rw [List.length_cons, List.take_succ_cons, List.forall₂_cons, ih (by simpa using h)]
      constructor
      · rintro ⟨hab, htail⟩ (_ | k) x y hx hy
        · cases hx; cases hy; exact hab
        · exact htail k x y hx hy
      · intro hall
        exact ⟨hall 0 a b rfl rfl, fun k => hall (k + 1)⟩

/-! ### Bundles -/

/-- The lanes of a bundle, in order. -/
def Port.lanes (p : Port) : List OperandLane := [p.op0, p.op1, p.op2]

theorem InstrType.arity_le_three (t : InstrType) : t.arity ≤ 3 := by
  cases t <;> decide

/-- The bundles that carry an instruction: valid, its opcode byte, its arity and its operands in the lanes in
use. -/
theorem decodePort_eq_ok_iff {p : Port} {i : Instr} :
    decodePort p = .ok i ↔
      p.valid = true ∧ i.type.opcode = p.type ∧ p.nops.toNat = i.type.arity
        ∧ List.Forall₂ OperandLane.Carries (p.lanes.take i.type.arity) i.operands := by
  rw [← OperandLane.operands_eq_some_iff, ← InstrType.ofOpcode_eq_some_iff]
  constructor
  · intro h
    unfold decodePort at h
    split at h
    · cases h
    · next hv =>
      split at h
      · cases h
      · next t ht =>
        split at h
        · cases h
        · next hn =>
          split at h
          · cases h
          · next ops hops =>
            split at h
            · next j hj =>
              obtain rfl := Except.ok.inj h
              obtain ⟨rfl, rfl⟩ := InstrType.build_eq_some_iff.mp hj
              exact ⟨by simpa using hv, ht, by simpa using hn, hops⟩
            · cases h
  · rintro ⟨hv, ht, hn, hops⟩
    have hb : i.type.build i.operands = some i := InstrType.build_eq_some_iff.mpr ⟨rfl, rfl⟩
    simp only [Port.lanes] at hops
    simp [decodePort, hv, ht, hn, hops, hb]

theorem decodePort_of_not_valid {p : Port} (h : p.valid = false) :
    decodePort p = .error (.precondition .noInstruction) := by
  rw [decodePort, if_pos h]

theorem decodePort_of_unknownType {p : Port} (hv : p.valid = true) (ht : ∀ t : InstrType, t.opcode ≠ p.type) :
    decodePort p = .error (.precondition .unknownType) := by
  simp [decodePort, hv, InstrType.ofOpcode_eq_none_iff.mpr ht]

theorem decodePort_of_arity_ne {p : Port} {t : InstrType} (hv : p.valid = true) (ht : t.opcode = p.type)
    (hn : t.arity ≠ p.nops.toNat) : decodePort p = .error (.precondition .arityMismatch) := by
  simp [decodePort, hv, InstrType.ofOpcode_eq_some_iff.mpr ht, hn.symm]

/-- Settles O49: the operands are related to the lanes in use member by member, which is by positions. -/
theorem decodedBundleCarriesItsInstruction : Obligations.DecodedBundleCarriesItsInstruction := by
  refine ⟨fun p i => ⟨?_, fun h => ?_⟩, by decide⟩
  · have hlen : i.operands.length ≤ p.lanes.length := i.operands_length.trans_le i.type.arity_le_three
    rw [decodePort_eq_ok_iff, ← i.operands_length, forall₂_take_length_iff hlen, @eq_comm _ p.type]
    rfl
  · obtain ⟨-, -, -, hops⟩ := decodePort_eq_ok_iff.mp h
    rw [← List.forall₂_eq_eq_eq, List.forall₂_map_left_iff, List.forall₂_map_right_iff]
    exact hops.imp fun _ _ => OperandLane.operand_eq_some_iff.mpr

/-! ### The bundle of an instruction -/

theorem Operand.lane_carries (o : Operand) : o.lane.Carries o := by
  have hindex (r : Reg) : (BitVec.ofNat 4 r.index).toNat = r.index := by cases r <;> rfl
  cases o with
  | imm _ => exact ⟨rfl, rfl⟩
  | reg r => exact ⟨rfl, hindex r⟩
  | dir _ => exact ⟨rfl, rfl⟩
  | ind r => exact ⟨rfl, hindex r⟩

/-- Lane `k` of the bundle of an instruction is that of its operand `k`. -/
theorem encodePort_lane {i : Instr} {k : Nat} {l : OperandLane} {o : Operand}
    (hl : (encodePort i).lanes[k]? = some l) (ho : i.operands[k]? = some o) : l = o.lane := by
  match k with
  | 0 | 1 | 2 => simpa [Port.lanes, encodePort, ho] using hl.symm
  | k + 3 => simp [Port.lanes] at hl

/-- Settles O48, by what a bundle carries: each lane in use is that of its operand, and carries it. -/
theorem portDecodesWhatItEncodes : Obligations.PortDecodesWhatItEncodes := by
  intro i
  have hnops : (encodePort i).nops.toNat = i.type.arity :=
    Nat.mod_eq_of_lt (Nat.lt_succ_of_le i.type.arity_le_three)
  refine decodePort_eq_ok_iff.mpr ⟨rfl, rfl, hnops, ?_⟩
  have hlen : i.operands.length ≤ (encodePort i).lanes.length :=
    i.operands_length.trans_le i.type.arity_le_three
  rw [← i.operands_length, forall₂_take_length_iff hlen]
  intro k l o hl ho
  rw [encodePort_lane hl ho]
  exact o.lane_carries

end Sys2Proof

/-! SUPPORT. The Parser (spec/30_encoding.md R110 to R116): the tokens of a text, what a text parses to, and how a
literal is spelt. -/

namespace Sys2Proof.Machine

/-! ### Tokens (R111) -/

/-- What the Parser may find between separators: not empty, and without a separator. -/
def IsToken (t : List Char) : Prop := t ≠ [] ∧ ∀ c ∈ t, isSeparator c = false

/-- A stretch without separators joins the token so far. -/
theorem tokenise_append {w : List Char} (hw : ∀ c ∈ w, isSeparator c = false) (sofar rest : List Char) :
    tokenise sofar (w ++ rest) = tokenise (sofar ++ w) rest := by
  induction w generalizing sofar with
  | nil => simp
  | cons c w ih =>
    obtain ⟨hc, hw⟩ := List.forall_mem_cons.mp hw
    simp [tokenise, hc, ih hw]

theorem tokenise_token {t : List Char} (ht : IsToken t) : tokenise [] t = [t] := by
  obtain ⟨hne, hsep⟩ := ht
  simpa [tokenise, hne] using tokenise_append hsep [] []

theorem tokenise_token_separator {t : List Char} (ht : IsToken t) {c : Char} (hc : isSeparator c = true)
    (rest : List Char) : tokenise [] (t ++ c :: rest) = t :: tokenise [] rest := by
  obtain ⟨hne, hsep⟩ := ht
  simp [tokenise_append hsep, tokenise, hc, hne]

theorem isToken_of_mem_tokenise {sofar text t : List Char} (hs : ∀ c ∈ sofar, isSeparator c = false)
    (h : t ∈ tokenise sofar text) : IsToken t := by
  have hempty : ∀ c ∈ ([] : List Char), isSeparator c = false := by simp
  induction text generalizing sofar with
  | nil =>
    cases sofar with
    | nil => simp [tokenise] at h
    | cons a as => obtain rfl := List.mem_singleton.mp h; exact ⟨List.cons_ne_nil _ _, hs⟩
  | cons c rest ih =>
    simp only [tokenise] at h
    split at h
    · split at h
      · exact ih hempty h
      · next hne =>
        rcases List.mem_cons.mp h with rfl | h
        · exact ⟨by simpa using hne, hs⟩
        · exact ih hempty h
    · next hc =>
      refine ih (fun d hd => ?_) h
      rcases List.mem_append.mp hd with hd | hd
      · exact hs d hd
      · rw [List.mem_singleton.mp hd]
        simpa using hc

/-! ### Rendering an instruction and reading it back (R116) -/

theorem tokenise_commaJoined {ts : List (List Char)} (h : ∀ t ∈ ts, IsToken t) :
    tokenise [] (commaJoined ts) = ts := by
  induction ts with
  | nil => rfl
  | cons t ts ih =>
    obtain ⟨ht, hts⟩ := List.forall_mem_cons.mp h
    cases ts with
    | nil => exact tokenise_token ht
    | cons u us =>
      calc tokenise [] (t ++ ',' :: commaJoined (u :: us))
          = t :: tokenise [] (commaJoined (u :: us)) := tokenise_token_separator ht (by decide) _
        _ = t :: u :: us := by rw [ih hts]

theorem mnemonicOf_isToken (y : InstrType) : IsToken (mnemonicOf y) := by
  cases y <;> simp [IsToken, mnemonicOf, isSeparator, Char.isWhitespace]

/-- A mnemonic is in upper case and names its own type (R111). -/
theorem typeOfName_upper_mnemonicOf (y : InstrType) : typeOfName (upper (mnemonicOf y)) = some y := by
  cases y <;> decide

theorem tokenise_formatInstruction {p : Parsed} (hm : IsToken p.mnemonic) (hd : ∀ t ∈ p.displays, IsToken t) :
    tokenise [] (formatInstruction p) = p.mnemonic :: p.displays := by
  unfold formatInstruction
  split
  · next h => rw [h, tokenise_token hm]
  · rw [tokenise_token_separator hm (by decide), tokenise_commaJoined hd]

/-! ### What tokens parse to (R110, R114) -/

theorem parseTokens_of_build_eq_none {m : List Char} {ts : List (List Char)} {y : InstrType} {os : List Operand}
    (hy : typeOfName (upper m) = some y) (hos : classifyAll ts = .ok os) (hb : y.build os = none) :
    parseTokens (m :: ts) = .error .operandCount := by
  simp only [parseTokens, hy, hos, hb]

/-- Tokens that parse: a mnemonic and the operands of an instruction of its type. -/
theorem parseTokens_eq_ok_iff {toks : List (List Char)} {p : Parsed} :
    parseTokens toks = .ok p ↔
      ∃ m ts y os i, toks = m :: ts ∧ typeOfName (upper m) = some y ∧ classifyAll ts = .ok os
        ∧ y.build os = some i ∧ p = ⟨i, mnemonicOf y, ts, attachedEncoding i⟩ := by
  constructor
  · intro h
    unfold parseTokens at h
    split at h
    · cases h
    · next m ts =>
      split at h
      · cases h
      · next y hy =>
        split at h
        · cases h
        · next os hos =>
          split at h
          · cases h
          · next i hi => exact ⟨m, ts, y, os, i, rfl, hy, hos, hi, (Except.ok.inj h).symm⟩
  · rintro ⟨m, ts, y, os, i, rfl, hy, hos, hi, rfl⟩
    simp only [parseTokens, hy, hos, hi]

/-- Settles O55: the rendered text has the mnemonic and the display strings as its tokens, because they are
tokens; the mnemonic names its type again, and the operands are those of the same strings. -/
theorem formatThenParseRoundTrip : Obligations.FormatThenParseRoundTrip := by
  intro text p h
  obtain ⟨m, ts, y, os, i, htoks, -, hos, hi, rfl⟩ := parseTokens_eq_ok_iff.mp h
  have hts : ∀ t ∈ ts, IsToken t := fun t ht =>
    isToken_of_mem_tokenise (sofar := []) (text := text) (by simp) (htoks ▸ List.mem_cons_of_mem m ht)
  rw [parse, tokenise_formatInstruction (mnemonicOf_isToken y) hts]
  exact parseTokens_eq_ok_iff.mpr ⟨_, ts, y, os, i, rfl, typeOfName_upper_mnemonicOf y, hos, hi, rfl⟩

theorem attachedEncoding_cases (i : Instr) :
    attachedEncoding i = none ∨ attachedEncoding i = some (encode i) := by
  unfold attachedEncoding
  split
  · exact .inr rfl
  · exact .inl rfl

/-- Settles O56: with the mnemonic and the operands given, only the count is left to decide. -/
theorem parseFailsExactlyOnWrongCount : Obligations.ParseFailsExactlyOnWrongCount := by
  intro text m ts y os htoks hy hos
  refine ⟨fun hne => ?_, fun heq => ?_⟩
  · rw [parse, htoks, parseTokens_of_build_eq_none hy hos (InstrType.build_eq_none hne)]
  · obtain ⟨i, hi⟩ := InstrType.exists_build heq
    obtain ⟨htype, hops⟩ := InstrType.build_eq_some_iff.mp hi
    have hparse : parse text = .ok ⟨i, mnemonicOf y, ts, attachedEncoding i⟩ :=
      parseTokens_eq_ok_iff.mpr ⟨m, ts, y, os, i, htoks, hy, hos, hi, rfl⟩
    exact ⟨_, hparse, htype, hops, rfl, rfl, attachedEncoding_cases i⟩

/-! ### Case (R111) -/

theorem isSeparator_of_isAlpha {c : Char} (h : c.isAlpha = true) : isSeparator c = false := by
  by_contra hc
  have hmem : c = ' ' ∨ c = '\t' ∨ c = '\r' ∨ c = '\n' ∨ c = ',' := by
    simpa only [isSeparator, Char.isWhitespace, Bool.not_eq_false, Bool.or_eq_true, decide_eq_true_eq, beq_iff_eq,
      or_assoc] using hc
  rcases hmem with rfl | rfl | rfl | rfl | rfl <;> exact absurd h (by decide)

theorem isSeparator_toUpper (c : Char) : isSeparator c.toUpper = isSeparator c := by
  by_cases h : c.isAlpha = true
  · have hu : c.toUpper.isAlpha = true := c.isAlpha_toUpper_eq_isAlpha.trans h
    rw [isSeparator_of_isAlpha h, isSeparator_of_isAlpha hu]
  · have hl : ¬ c.isLower = true := fun hl => h (by simp [Char.isAlpha, hl])
    rw [Char.toUpper_eq_of_not_isLower hl]

theorem upper_upper (t : List Char) : upper (upper t) = upper t := by
  simp [upper, Function.comp_def]

/-- Letters are no separators, so upper case moves no token boundary. -/
theorem tokenise_upper (sofar text : List Char) :
    tokenise (upper sofar) (upper text) = (tokenise sofar text).map upper := by
  induction text generalizing sofar with
  | nil => cases sofar <;> rfl
  | cons c rest ih =>
    have hnil := ih []
    have hsnoc := ih (sofar ++ [c])
    simp only [upper, List.map_nil, List.map_append, List.map_cons] at hnil hsnoc
    simp only [upper, List.map_cons, tokenise, isSeparator_toUpper, List.isEmpty_map, hnil, hsnoc]
    split
    · split <;> simp [upper]
    · rfl

theorem classifyAll_map_upper (ts : List (List Char)) : classifyAll (ts.map upper) = classifyAll ts := by
  induction ts with
  | nil => rfl
  | cons t ts ih => simp only [List.map_cons, classifyAll, upper_upper, ih]

/-- Upper case changes the display strings and nothing else of what tokens parse to. -/
theorem parseTokens_map_upper (toks : List (List Char)) :
    parseTokens (toks.map upper) =
      (parseTokens toks).map fun p => { p with displays := p.displays.map upper } := by
  cases toks with
  | nil => rfl
  | cons m ts =>
    simp only [List.map_cons, parseTokens, upper_upper, classifyAll_map_upper]
    cases typeOfName (upper m) with
    | none => rfl
    | some y =>
      cases classifyAll ts with
      | error e => rfl
      | ok os => cases hb : y.build os <;> simp only [hb] <;> rfl

/-- Settles O57: upper case splits into the same tokens in upper case, and these parse alike. -/
theorem parseIgnoresCase : Obligations.ParseIgnoresCase := by
  intro text
  have h : parse (upper text) = (parse text).map fun p => { p with displays := p.displays.map upper } := by
    rw [parse, parse, ← parseTokens_map_upper, ← tokenise_upper]
    rfl
  refine ⟨fun p hp => ?_, fun e he => ?_⟩
  · rw [h, hp]
    exact ⟨_, rfl, rfl⟩
  · rw [h, he]
    rfl

/-! ### Spellings (R112, R113) -/

theorem digitsValue_eq_some {ds : List Char} (h : ∀ c ∈ ds, c.isDigit = true) (sofar : Nat) :
    digitsValue sofar ds = some (Nat.ofDigitChars 10 ds sofar) := by
  induction ds generalizing sofar with
  | nil => rfl
  | cons c ds ih =>
    obtain ⟨hc, hds⟩ := List.forall_mem_cons.mp h
    rw [digitsValue, if_pos hc, ih hds, Nat.ofDigitChars_cons]

section Digits

variable {ds : List Char} (hne : ds ≠ []) (hds : ∀ c ∈ ds, c.isDigit = true)
include hds

/-- No word that begins with something else is a string of digits. -/
theorem ne_cons_of_digits {c : Char} (hc : c.isDigit = false) (rest : List Char) : ds ≠ c :: rest := by
  rintro rfl
  exact absurd (hds c (List.mem_cons_self ..)) (by simp [hc])

theorem registerOfName_digits : registerOfName ds = none := by
  have hname (r : Reg) : registerName r ≠ ds := by
    cases r <;> exact (ne_cons_of_digits hds (by decide) _).symm
  simp [registerOfName, hname]

theorem bracketed_digits : bracketed ds = none := by
  unfold bracketed
  split
  · exact absurd rfl (ne_cons_of_digits hds (by decide) _)
  · rfl

include hne

theorem integerOf_digits : integerOf ds = some (Nat.ofDigitChars 10 ds 0 : Int) := by
  unfold integerOf
  split
  · exact absurd rfl (ne_cons_of_digits hds (by decide) _)
  · rw [naturalOf, if_neg (by simpa using hne), digitsValue_eq_some hds]
    rfl

/-- A string of digits is a DIRECT operand. -/
theorem classify_digits : classify ds = directOf (Nat.ofDigitChars 10 ds 0) := by
  unfold classify
  split
  · exact absurd rfl (ne_cons_of_digits hds (by decide) _)
  · simp only [registerOfName_digits hds, bracketed_digits hds, integerOf_digits hne hds]

/-- A string of digits after `#` is an IMMEDIATE operand. -/
theorem classify_hash_digits : classify ('#' :: ds) = immediateOf (Nat.ofDigitChars 10 ds 0) := by
  simp only [classify, integerOf_digits hne hds]

end Digits

theorem directOf_toNat (v : Word) : directOf v.toNat = .ok (.dir v) := by
  have hv : (v.toNat : Int) < 2 ^ 32 := by exact_mod_cast v.isLt
  rw [directOf, if_pos (by omega)]
  simp [mask32]

theorem immediateOf_toNat (v : Word) : immediateOf v.toNat = .ok (.imm v) := by
  have hv : (v.toNat : Int) < 2 ^ 32 := by exact_mod_cast v.isLt
  rw [immediateOf, if_pos (by omega)]
  simp [mask32]

/-- Settles O58: a literal is spelt by its decimal digits. -/
theorem everyOperandHasASpelling : Obligations.EveryOperandHasASpelling := by
  refine ⟨fun r => by cases r <;> decide, fun v => ?_⟩
  have hne : Nat.toDigits 10 v.toNat ≠ [] := Nat.toDigits_ne_nil
  have hds : ∀ c ∈ Nat.toDigits 10 v.toNat, c.isDigit = true := fun _ =>
    Nat.isDigit_of_mem_toDigits (by decide) (by decide)
  have hv : Nat.ofDigitChars 10 (Nat.toDigits 10 v.toNat) 0 = v.toNat :=
    Nat.ofDigitChars_toDigits (by decide) (by decide)
  refine ⟨Nat.toDigits 10 v.toNat, hne, hds, ?_, ?_⟩
  · rw [classify_digits hne hds, hv, directOf_toNat]
  · rw [classify_hash_digits hne hds, hv, immediateOf_toNat]

end Sys2Proof.Machine

/-! SUPPORT. The display word by its four bytes (spec/30_encoding.md R100 to R107): what the Encoder puts into them,
which words a row of the opcode table holds, and the representative of such a word. -/

namespace Sys2Proof

/-! ### The bytes of the display word -/

theorem extractLsb'_eq_of_toNat {w : Word} {k : Nat} {b : BitVec 8} (h : w.toNat / 2 ^ k % 2 ^ 8 = b.toNat) :
    w.extractLsb' k 8 = b := by
  apply BitVec.eq_of_toNat_eq
  rw [BitVec.extractLsb'_toNat, Nat.shiftRight_eq_div_pow, h]

/-- A word is its four bytes. -/
theorem word_eq_iff_bytes {v w : Word} :
    v = w ↔ v.extractLsb' 24 8 = w.extractLsb' 24 8 ∧ v.extractLsb' 16 8 = w.extractLsb' 16 8
      ∧ v.extractLsb' 8 8 = w.extractLsb' 8 8 ∧ v.extractLsb' 0 8 = w.extractLsb' 0 8 := by
  constructor
  · rintro rfl
    exact ⟨rfl, rfl, rfl, rfl⟩
  · intro h
    simp only [BitVec.toNat_eq, BitVec.extractLsb'_toNat, Nat.shiftRight_eq_div_pow] at h ⊢
    omega

/-- The word of an instruction, byte by byte (R100). -/
theorem encode_eq_iff {i : Instr} {w : Word} :
    encode i = w ↔
      w.extractLsb' 24 8 = i.type.opcode ∧ w.extractLsb' 16 8 = i.operandByte 0
        ∧ w.extractLsb' 8 8 = i.operandByte 1 ∧ w.extractLsb' 0 8 = 0#8 := by
  have ha := (i.operandByte 0).isLt
  have hb := (i.operandByte 1).isLt
  have h3 : (encode i).extractLsb' 24 8 = i.type.opcode :=
    extractLsb'_eq_of_toNat (by rw [encode_toNat]; omega)
  have h2 : (encode i).extractLsb' 16 8 = i.operandByte 0 :=
    extractLsb'_eq_of_toNat (by rw [encode_toNat]; omega)
  have h1 : (encode i).extractLsb' 8 8 = i.operandByte 1 :=
    extractLsb'_eq_of_toNat (by rw [encode_toNat]; omega)
  have h0 : (encode i).extractLsb' 0 8 = 0#8 :=
    extractLsb'_eq_of_toNat (by rw [encode_toNat, BitVec.toNat_zero]; omega)
  rw [eq_comm, word_eq_iff_bytes, h3, h2, h1, h0]

/-- The word holds the type and the bytes of the first two operands, and nothing more. -/
theorem encode_congr {i j : Instr} (ht : i.type = j.type) (ha : i.operandByte 0 = j.operandByte 0)
    (hb : i.operandByte 1 = j.operandByte 1) : encode i = encode j := by
  rw [encode_eq_or, encode_eq_or, ht, ha, hb]

/-! ### Operand bytes (R102) -/

theorem Instr.operandByte_of_getElem? {i : Instr} {k : Nat} {o : Operand} (h : i.operands[k]? = some o) :
    i.operandByte k = o.byte := by
  rw [Instr.operandByte, h]
  rfl

theorem Instr.operandByte_toNat (i : Instr) (k : Nat) :
    (i.operandByte k).toNat = ((i.operands.map fun o => o.byte.toNat)[k]?).getD 0 := by
  rw [Instr.operandByte, List.getElem?_map]
  cases i.operands[k]? <;> rfl

@[simp] theorem Operand.reg_byte_toNat (r : Reg) : (Operand.reg r).byte.toNat = r.index := by
  cases r <;> rfl

@[simp] theorem Operand.ind_byte_toNat (r : Reg) : (Operand.ind r).byte.toNat = 0x80 + r.index := by
  cases r <;> rfl

@[simp] theorem Operand.imm_byte_toNat (v : Word) : (Operand.imm v).byte.toNat = v.toNat % 2 ^ 8 := by
  rw [Operand.byte, BitVec.extractLsb'_toNat, Nat.shiftRight_zero]

@[simp] theorem Operand.dir_byte_toNat (v : Word) : (Operand.dir v).byte.toNat = v.toNat % 2 ^ 8 :=
  Operand.imm_byte_toNat v

/-- Settles O51: the word is its bytes side by side. -/
theorem operandBytesOfTheDisplayWord : Obligations.OperandBytesOfTheDisplayWord := by
  refine ⟨fun i => ⟨encode_toNat_mod_low i, ?_, ?_⟩, fun r => ⟨Operand.reg_byte_toNat r, Operand.ind_byte_toNat r⟩,
    fun v => ⟨Operand.imm_byte_toNat v, Operand.dir_byte_toNat v⟩⟩
  all_goals
    have ha := (i.operandByte 0).isLt
    have hb := (i.operandByte 1).isLt
    rw [← i.operandByte_toNat, encode_toNat]
    omega

/-- Settles O52: a third operand R0 and a third operand R1 give one word. -/
theorem displayWordIsLossy : Obligations.DisplayWordIsLossy := by
  rintro y hy ⟨f, hf⟩
  have harity : y.arity = 3 := by
    have hall : ∀ y ∈ [InstrType.add, .sub, .mul, .div], y.arity = 3 := by decide
    exact hall y hy
  obtain ⟨i, hi⟩ := InstrType.exists_build (ops := [.reg .r0, .reg .r0, .reg .r0]) harity.symm
  obtain ⟨j, hj⟩ := InstrType.exists_build (ops := [.reg .r0, .reg .r0, .reg .r1]) harity.symm
  obtain ⟨hti, hoi⟩ := InstrType.build_eq_some_iff.mp hi
  obtain ⟨htj, hoj⟩ := InstrType.build_eq_some_iff.mp hj
  have hword : encode i = encode j :=
    encode_congr (hti.trans htj.symm) (by rw [Instr.operandByte, Instr.operandByte, hoi, hoj]; rfl)
      (by rw [Instr.operandByte, Instr.operandByte, hoi, hoj]; rfl)
  have hij : i = j := by rw [← hf _ _ _ i hi, hword, hf _ _ _ j hj]
  rw [← hij, hoi] at hoj
  exact absurd hoj (by decide)

/-! ### An operand for every byte (log entry 2) -/

theorem Operand.byte_imm_setWidth (b : BitVec 8) : (Operand.imm (b.setWidth 32)).byte = b := by
  apply BitVec.eq_of_toNat_eq
  have := b.isLt
  rw [Operand.imm_byte_toNat, BitVec.toNat_setWidth]
  omega

theorem Operand.byte_ind_of_index {b : BitVec 8} {r : Reg} (h : r.index = b.toNat - 0x80) (hle : 0x80 ≤ b.toNat) :
    (Operand.ind r).byte = b := by
  apply BitVec.eq_of_toNat_eq
  rw [Operand.ind_byte_toNat, h]
  omega

theorem Operand.byte_ofByte (b : BitVec 8) : (Operand.ofByte b).byte = b := by
  unfold Operand.ofByte
  split
  · next r h =>
    apply BitVec.eq_of_toNat_eq
    rw [Operand.reg_byte_toNat, Reg.ofIndex_eq_some_iff.mp h]
  · next r _ h =>
    split
    · next hle => exact Operand.byte_ind_of_index (Reg.ofIndex_eq_some_iff.mp h) hle
    · exact Operand.byte_imm_setWidth b
  · exact Operand.byte_imm_setWidth b

theorem Operand.byte_ofAddressByte (b : BitVec 8) : (Operand.ofAddressByte b).byte = b := by
  unfold Operand.ofAddressByte
  split
  · next r h =>
    split
    · next hle => exact Operand.byte_ind_of_index (Reg.ofIndex_eq_some_iff.mp h) hle
    · exact Operand.byte_imm_setWidth b
  · exact Operand.byte_imm_setWidth b

theorem Operand.isAddress_ofAddressByte (b : BitVec 8) : (Operand.ofAddressByte b).isAddress = true := by
  unfold Operand.ofAddressByte
  split
  · split <;> rfl
  · rfl

/-- The operands read off a word build a well-formed instruction with the bytes of the word. -/
theorem exists_build_wordOperands (t : InstrType) (w : Word) :
    ∃ j, t.build (wordOperands t w) = some j ∧ j.wf = true
      ∧ (1 ≤ t.arity → j.operandByte 0 = w.extractLsb' 16 8)
      ∧ (2 ≤ t.arity → j.operandByte 1 = w.extractLsb' 8 8) := by
  have hdata (k : Nat) (b : BitVec 8) {j : Instr} (h : j.operands[k]? = some (Operand.ofByte b)) :
      j.operandByte k = b := by rw [Instr.operandByte_of_getElem? h, Operand.byte_ofByte]
  have haddr (k : Nat) (b : BitVec 8) {j : Instr} (h : j.operands[k]? = some (Operand.ofAddressByte b)) :
      j.operandByte k = b := by rw [Instr.operandByte_of_getElem? h, Operand.byte_ofAddressByte]
  cases t with
  | nop => exact ⟨_, rfl, rfl, fun h => absurd h (by decide), fun h => absurd h (by decide)⟩
  | jmp | jz | jnz => exact ⟨_, rfl, rfl, fun _ => hdata 0 _ rfl, fun h => absurd h (by decide)⟩
  | mov | cmp | add | sub | mul | div => exact ⟨_, rfl, rfl, fun _ => hdata 0 _ rfl, fun _ => hdata 1 _ rfl⟩
  | load | store =>
    exact ⟨_, rfl, Operand.isAddress_ofAddressByte (w.extractLsb' 8 8), fun _ => hdata 0 _ rfl,
      fun _ => haddr 1 _ rfl⟩

/-! ### The rows of the opcode table (R101, R107) -/

/-- The word has the opcode byte of the type, and 0 in every byte the format of the type leaves 0. -/
def InstrType.HasRow (t : InstrType) (w : Word) : Prop :=
  w.extractLsb' 24 8 = t.opcode ∧ (t.arity = 0 → w.extractLsb' 16 8 = 0#8) ∧ (t.arity ≤ 1 → w.extractLsb' 8 8 = 0#8)
    ∧ w.extractLsb' 0 8 = 0#8

theorem byte_and_ite_eq_zero_iff {c : Prop} [Decidable c] {b : BitVec 8} :
    b &&& (if c then 0xFF#8 else 0#8) = 0#8 ↔ (c → b = 0#8) := by
  have hones : b &&& 0xFF#8 = b := BitVec.and_allOnes
  split
  · next hc => simp [hc, hones]
  · next hc => simp [hc]

/-- The mask of a type keeps the bytes its format fixes. -/
theorem and_mask_eq_iff {t : InstrType} {w : Word} :
    w &&& t.mask = t.opcode.setWidth 32 <<< 24 ↔ t.HasRow w := by
  have hones (b : BitVec 8) : b &&& 0xFF#8 = b := BitVec.and_allOnes
  have hm3 : t.mask.extractLsb' 24 8 = 0xFF#8 := by cases t <;> rfl
  have hm2 : t.mask.extractLsb' 16 8 = if t.arity = 0 then 0xFF#8 else 0#8 := by cases t <;> rfl
  have hm1 : t.mask.extractLsb' 8 8 = if t.arity ≤ 1 then 0xFF#8 else 0#8 := by cases t <;> rfl
  have hm0 : t.mask.extractLsb' 0 8 = 0xFF#8 := by cases t <;> rfl
  have ho3 : (t.opcode.setWidth 32 <<< 24 : Word).extractLsb' 24 8 = t.opcode := by cases t <;> rfl
  have ho2 : (t.opcode.setWidth 32 <<< 24 : Word).extractLsb' 16 8 = 0#8 := by cases t <;> rfl
  have ho1 : (t.opcode.setWidth 32 <<< 24 : Word).extractLsb' 8 8 = 0#8 := by cases t <;> rfl
  have ho0 : (t.opcode.setWidth 32 <<< 24 : Word).extractLsb' 0 8 = 0#8 := by cases t <;> rfl
  simp only [word_eq_iff_bytes (v := w &&& t.mask), BitVec.extractLsb'_and, hm3, hm2, hm1, hm0, ho3, ho2, ho1, ho0,
    byte_and_ite_eq_zero_iff, hones, InstrType.HasRow]

theorem InstrType.mem_all (t : InstrType) : t ∈ InstrType.all := by
  cases t <;> decide

theorem hasRow_of_tableRow {w : Word} {t : InstrType} (h : tableRow w = some t) : t.HasRow w := by
  have hfound : (w &&& t.mask == t.opcode.setWidth 32 <<< 24) = true :=
    List.find?_some (p := fun u : InstrType => w &&& u.mask == u.opcode.setWidth 32 <<< 24) h
  exact and_mask_eq_iff.mp (beq_iff_eq.mp hfound)

/-- A word belongs to one row at most: its opcode byte tells which. -/
theorem tableRow_eq_some_iff {w : Word} {t : InstrType} : tableRow w = some t ↔ t.HasRow w := by
  refine ⟨hasRow_of_tableRow, fun h => ?_⟩
  obtain ⟨u, hu⟩ : ∃ u, tableRow w = some u :=
    Option.isSome_iff_exists.mp (List.find?_isSome.mpr ⟨t, t.mem_all, beq_iff_eq.mpr (and_mask_eq_iff.mpr h)⟩)
  obtain ⟨hopu, -⟩ := hasRow_of_tableRow hu
  obtain ⟨hop, -⟩ := h
  calc tableRow w = some u := hu
    _ = InstrType.ofOpcode (w.extractLsb' 24 8) := by rw [hopu, InstrType.ofOpcode_opcode]
    _ = some t := by rw [hop, InstrType.ofOpcode_opcode]

/-- The word of an instruction belongs to the row of its type. -/
theorem tableRow_encode (i : Instr) : tableRow (encode i) = some i.type := by
  obtain ⟨h3, h2, h1, h0⟩ := encode_eq_iff.mp (rfl : encode i = encode i)
  exact tableRow_eq_some_iff.mpr ⟨h3, fun ha => h2.trans (Instr.operandByte_of_arity_le ha.le),
    fun ha => h1.trans (Instr.operandByte_of_arity_le ha), h0⟩

/-- Every word of a row has a representative of the row's type with this word. -/
theorem representative_of_tableRow {w : Word} {t : InstrType} (h : tableRow w = some t) :
    ∃ j, representative w = some j ∧ j.wf = true ∧ j.type = t ∧ encode j = w := by
  obtain ⟨h3, h2, h1, h0⟩ := tableRow_eq_some_iff.mp h
  obtain ⟨j, hj, hw, ha, hb⟩ := exists_build_wordOperands t w
  obtain ⟨rfl, -⟩ := InstrType.build_eq_some_iff.mp hj
  have ha' : w.extractLsb' 16 8 = j.operandByte 0 := by
    rcases Nat.eq_zero_or_pos j.type.arity with hz | hp
    · rw [h2 hz, Instr.operandByte_of_arity_le hz.le]
    · exact (ha hp).symm
  have hb' : w.extractLsb' 8 8 = j.operandByte 1 := by
    rcases Nat.lt_or_ge 1 j.type.arity with hp | hz
    · exact (hb hp).symm
    · rw [h1 hz, Instr.operandByte_of_arity_le hz]
  have hword : encode j = w := encode_eq_iff.mpr ⟨h3, ha', hb', h0⟩
  have htype : wordType w = some j.type := hword ▸ wordType_encode j
  exact ⟨j, by simp [representative, htype, hj, hword], hw, rfl, hword⟩

/-- Settles O59: a word of a row is that of its representative. -/
theorem tableRowsAreTheEncodersImage : Obligations.TableRowsAreTheEncodersImage := by
  intro w t
  constructor
  · intro h
    obtain ⟨j, -, hw, ht, hword⟩ := representative_of_tableRow h
    exact ⟨j, hw, ht, hword⟩
  · rintro ⟨i, -, rfl, rfl⟩
    exact tableRow_encode i

/-- Settles O53: the word is in the row of its type. -/
theorem representativeHasTheSameWord : Obligations.RepresentativeHasTheSameWord := by
  intro i _
  obtain ⟨j, hj, hw, ht, hword⟩ := representative_of_tableRow (tableRow_encode i)
  refine ⟨j, ?_, hword, ht, hw⟩
  rw [decodeTableWord, if_pos ⟨le_rfl, (encode i).isLt⟩, BitVec.ofNat_toNat, BitVec.setWidth_eq, hj]

/-- Settles O54: by evaluation, since it names closed words only. -/
theorem workedEncodings : Obligations.WorkedEncodings := by
  unfold Obligations.WorkedEncodings
  decide

end Sys2Proof

/-! SUPPORT. The run of each instruction (spec/41_arithmetic.md, spec/42_data_movement.md,
spec/43_compare_jump_nop.md), from the one account of a run: `exec_of_dataAfter`. -/

namespace Sys2Proof.Machine

/-! ### Signed values and the quotient (R10, R174, R175) -/

/-- The signed reading of a word differs from the unsigned one by a multiple of 2^32. -/
theorem signedValue_modEq (w : Word) : signedValue w ≡ w.toNat [ZMOD 2 ^ 32] := by
  rw [← s32_eq_signedValue, Int.ModEq, s32, BitVec.toInt_eq_toNat_bmod]
  exact Int.bmod_emod

theorem IsMask32.congr {v : Word} {m n : Int} (h : IsMask32 v m) (hmn : m ≡ n [ZMOD 2 ^ 32]) : IsMask32 v n :=
  h.trans hmn

/-- The quotient rounded toward zero is the one R10 writes out. -/
theorem tdiv_eq_truncQuotient (p q : Int) : Int.tdiv p q = truncQuotient p q := by
  have hquot : (Int.tdiv p q).natAbs = p.natAbs / q.natAbs := Int.natAbs_tdiv p q
  rw [truncQuotient, ← Int.sign_mul_natAbs (Int.tdiv p q), Int.sign_tdiv, hquot]
  split
  · next hlt => simp [Nat.div_eq_of_lt hlt]
  · rfl

/-! ### Runs from a ready state -/

theorem completedState_completed {s : State} (hr : s.ready) (i : Instr) (d : Regs × Memory) :
    Completed i s (completedState i s d) :=
  ⟨rfl, rfl, rfl, rfl, hr.2, rfl, rfl, rfl, rfl⟩

theorem Completed.ready {i : Instr} {s t : State} (h : Completed i s t) : t.ready := by
  obtain ⟨-, -, -, hrun, hf, -⟩ := h
  exact ⟨hrun, hf⟩

/-- A type with no MEMORY operation completes with what its EXECUTE operation leaves. -/
theorem exec_of_noMemory {i : Instr} {s : State} (hr : s.ready) (hm : memoryOp i = noMemory) :
    exec i s =
      .next (completedState i s ((executeOp settings i s.fetched).regs, (executeOp settings i s.fetched).mem)) :=
  exec_of_dataAfter hr (dataAfter_of_noMemory settings hm s)

/-- An instruction whose EXECUTE is a destination write completes with that write done. -/
theorem exec_receives {i : Instr} {s : State} {dst : Operand} {v : Word} (hr : s.ready) (hw : s.mem.wf)
    (hm : memoryOp i = noMemory) (he : executeOp settings i s.fetched = writeOperand dst v s.fetched) :
    ∃ t, exec i s = .next t ∧ Receives dst v s.fetched.regs s.mem t ∧ Completed i s t := by
  have hreceives := writeOperand_receives (s := s.fetched) hw dst v
  rw [← he] at hreceives
  exact ⟨_, exec_of_noMemory hr hm, Receives_congr rfl rfl hreceives, completedState_completed hr i _⟩

/-- An instruction whose EXECUTE leaves memory alone completes with the registers EXECUTE leaves. -/
theorem exec_leaves_regs {i : Instr} {s : State} {x : Regs} (hr : s.ready) (hm : memoryOp i = noMemory)
    (he : executeOp settings i s.fetched = { s.fetched with regs := x }) :
    ∃ t, exec i s = .next t ∧ t.regs = x ∧ t.mem = s.mem ∧ Completed i s t := by
  refine ⟨_, exec_of_noMemory hr hm, ?_, ?_, completedState_completed hr i _⟩ <;> rw [he] <;> rfl

/-! ### Arithmetic and MOV -/

/-- Settles O1: EXECUTE is the destination write of the masked sum. -/
theorem addStoresWrappedSum : Obligations.AddStoresWrappedSum := by
  intro s dst src1 src2 hr hw
  obtain ⟨t, ht, hreceives, hdone⟩ := exec_receives (i := .add dst src1 src2) hr hw rfl rfl
  exact ⟨⟨t, _, ht, mask32_isMask32 _, hreceives, hdone⟩, encode_toNat_div_top _, fun _ => encode_congr rfl rfl rfl⟩

/-- Settles O2: EXECUTE is the destination write of the masked difference. -/
theorem subStoresWrappedDifference : Obligations.SubStoresWrappedDifference := by
  intro s dst src1 src2 hr hw
  obtain ⟨t, ht, hreceives, hdone⟩ := exec_receives (i := .sub dst src1 src2) hr hw rfl rfl
  exact ⟨⟨t, _, ht, mask32_isMask32 _, hreceives, hdone⟩, encode_toNat_div_top _, fun _ => encode_congr rfl rfl rfl⟩

/-- Settles O3: the product modulo 2^32 depends on the factors modulo 2^32 only. -/
theorem mulStoresLowProduct : Obligations.MulStoresLowProduct := by
  intro s dst src1 src2 hr hw
  obtain ⟨t, ht, hreceives, hdone⟩ := exec_receives (i := .mul dst src1 src2) hr hw rfl rfl
  have hlow := mask32_isMask32 ((readOperand src1 s.fetched).toNat * (readOperand src2 s.fetched).toNat)
  exact ⟨t, _, ht, hlow, hlow.congr ((signedValue_modEq _).mul (signedValue_modEq _)).symm, hreceives, hdone⟩

/-- Settles O4: with a divisor that is not 0, EXECUTE is the destination write of the quotient. -/
theorem divStoresTruncatedQuotient : Obligations.DivStoresTruncatedQuotient := by
  intro s dst src1 src2 hr hw hne
  have he : executeOp settings (.div dst src1 src2) s.fetched
      = writeOperand dst (divWords .signed (readOperand src1 s.fetched) (readOperand src2 s.fetched)) s.fetched :=
    if_neg hne
  obtain ⟨t, ht, hreceives, hdone⟩ := exec_receives hr hw rfl he
  refine ⟨t, _, ht, ?_, hreceives, hdone⟩
  rw [← tdiv_eq_truncQuotient, ← s32_eq_signedValue, ← s32_eq_signedValue]
  exact mask32_isMask32 _

/-- Settles O6: EXECUTE is the destination write of the source's value. -/
theorem movCopiesSource : Obligations.MovCopiesSource :=
  fun _ dst src hr hw => exec_receives (i := .mov dst src) hr hw rfl rfl

/-! ### LOAD and STORE -/

/-- Settles O7: MEMORY is the destination write, after MAR and MDR are staged. -/
theorem loadStagesAndWritesWord : Obligations.LoadStagesAndWritesWord := by
  intro s dst addr ea hr hw ha
  have hreceives := writeOperand_receives
    (s := (s.fetched.setReg .mar ea).setReg .mdr (s.mem.read ea)) hw dst (s.mem.read ea)
  exact ⟨_, exec_of_dataAfter hr (dataAfter_load settings ha dst), Receives_congr rfl rfl hreceives,
    completedState_completed hr _ _⟩

/-- Settles O8: MEMORY is one store, after MAR and MDR are staged. -/
theorem storeStagesAndStoresWord : Obligations.StoreStagesAndStoresWord := by
  intro s src addr ea hr hw ha
  exact ⟨_, exec_of_dataAfter hr (dataAfter_store settings ha src), rfl, Memory.write_storedAt hw _ _,
    completedState_completed hr _ _⟩

/-- A ready Engine refuses exactly the instructions that are not well formed (R94, R237). -/
theorem exec_of_not_wf {i : Instr} {s : State} (hr : s.ready) (hw : i.wf = false) :
    exec i s = .refused .addressOperandNotAdmitted := by
  have hnone : dataAfter settings i s = none := by
    rw [← Option.isNone_iff_eq_none, ← Option.not_isSome, dataAfter_isSome, hw]
    rfl
  rw [exec_cases, ignoresStart_of_ready hr, hnone]
  rfl

/-- Settles O9: the four forms without an address are not well formed. -/
theorem addressOperandDecidesLoadAndStore : Obligations.AddressOperandDecidesLoadAndStore := by
  intro s data hr
  exact ⟨fun _ => rfl, fun _ => rfl, rfl, rfl, fun _ => ⟨exec_of_not_wf hr rfl, exec_of_not_wf hr rfl⟩,
    fun _ => ⟨exec_of_not_wf hr rfl, exec_of_not_wf hr rfl⟩⟩

/-! ### CMP and the jumps -/

/-- Settles O10: EXECUTE writes the flags of the signed comparison into PSW. -/
theorem cmpSetsFlagsOfExactDifference : Obligations.CmpSetsFlagsOfExactDifference := by
  intro s left right hr
  refine exec_leaves_regs hr rfl ?_
  have hflags := compareFlags_eq .signed (readOperand left s.fetched) (readOperand right s.fetched)
  simp only [readAs, s32_eq_signedValue, zeroBit, negativeBit] at hflags
  rw [← hflags]
  rfl

/-- Settles O11: EXECUTE writes the operand's value into PC. -/
theorem jmpSetsPc : Obligations.JmpSetsPc := fun _ _ hr => exec_leaves_regs hr rfl rfl

/-- Settles O12: FETCH leaves PSW alone, so EXECUTE tests the bit it had. -/
theorem jzJumpsOnZeroFlag : Obligations.JzJumpsOnZeroFlag := by
  intro s target hr
  refine exec_leaves_regs hr rfl ?_
  have hz : zeroFlag (s.fetched.getReg .psw) = decide (s.regs.psw.toNat / 64 % 2 = 1) := zeroFlag_eq s.regs.psw
  simp only [executeOp, jzOp, hz, decide_eq_true_eq]
  split <;> rfl

/-- Settles O13: as for JZ, with the bit tested for 0. -/
theorem jnzJumpsOnClearZeroFlag : Obligations.JnzJumpsOnClearZeroFlag := by
  intro s target hr
  refine exec_leaves_regs hr rfl ?_
  have hz : zeroFlag (s.fetched.getReg .psw) = decide (s.regs.psw.toNat / 64 % 2 = 1) := zeroFlag_eq s.regs.psw
  have hbit : s.regs.psw.toNat / 64 % 2 = 0 ↔ ¬ s.regs.psw.toNat / 64 % 2 = 1 := by omega
  simp only [executeOp, jnzOp, hz, decide_eq_true_eq, hbit, ite_not]
  split <;> rfl

/-- Settles O21: CMP leaves bit 6 set on equal values and clear on different ones, and the jumps test it. -/
theorem compareThenConditionalJump : Obligations.CompareThenConditionalJump := by
  intro s left right v hr
  obtain ⟨t, ht, htregs, -, htdone⟩ := cmpSetsFlagsOfExactDifference s left right hr
  obtain ⟨z, hz, hzregs, -⟩ := jzJumpsOnZeroFlag t (.imm v) htdone.ready
  obtain ⟨n, hn, hnregs, -⟩ := jnzJumpsOnClearZeroFlag t (.imm v) htdone.ready
  have hpc : t.regs.pc + 4 = s.regs.pc + 8 := by
    rw [htregs]
    exact BitVec.add_assoc s.regs.pc 4 4
  refine ⟨t, z, n, ht, hz, hn, fun heq => ?_, fun hne => ?_⟩
  · have hpsw : t.regs.psw = 0x40 := by rw [htregs]; exact if_pos heq
    rw [hzregs, hnregs, hpsw]
    exact ⟨rfl, hpc⟩
  · have hpsw : t.regs.psw.toNat / 64 % 2 = 0 := by
      simp only [htregs, if_neg hne]
      split <;> rfl
    rw [hzregs, hnregs, hpsw]
    exact ⟨hpc, rfl⟩

/-! ### Rules over all instructions -/

theorem exists_dataAfter_of_wf {i : Instr} (hw : i.wf = true) (cfg : Config) (s : State) :
    ∃ d, dataAfter cfg i s = some d :=
  Option.isSome_iff_exists.mp ((dataAfter_isSome cfg i s).trans hw)

/-- Settles O15: a well-formed instruction leaves data to complete with. -/
theorem everyWellFormedInstructionCompletes : Obligations.EveryWellFormedInstructionCompletes := by
  intro i s hw hr
  obtain ⟨d, hd⟩ := exists_dataAfter_of_wf hw settings s
  exact ⟨_, exec_of_dataAfter hr hd, completedState_completed hr i d⟩

/-- Settles O24: both are the completed state of the same data. -/
theorem execIsTheRunUnderTheSettings : Obligations.ExecIsTheRunUnderTheSettings := by
  intro i s t hw hr
  obtain ⟨d, hd⟩ := exists_dataAfter_of_wf hw settings s
  rw [exec_of_dataAfter hr hd, runWith_eq, hd, Option.map_some, Host.Outcome.next.injEq, Option.some.injEq]

theorem compareFlags_values (reading : ValueReading) (a b : Word) :
    compareFlags reading a b = 0x00000000 ∨ compareFlags reading a b = 0x00000040
      ∨ compareFlags reading a b = 0x00000080 := by
  rw [compareFlags_eq]
  split
  · exact .inr (.inl rfl)
  · split
    · exact .inr (.inr rfl)
    · exact .inl rfl

/-- EXECUTE of a type other than CMP leaves PSW alone, unless PSW is its destination. -/
theorem executeOp_psw (cfg : Config) {i : Instr} (hc : i.type ≠ .cmp) (hd : i.destination ≠ some (.reg .psw))
    (s : State) : (executeOp cfg i s).regs.psw = s.regs.psw := by
  rcases executeOp_cases cfg i s with h | ⟨d, v, hdst, h⟩ | ⟨v, h⟩ | ⟨hcmp, -⟩
  · rw [h]
  · rw [h]
    exact writeOperand_get_of_ne (r := .psw) (fun e => hd (hdst.trans (congrArg some e))) v s
  · rw [h]
    rfl
  · exact absurd hcmp hc

/-- MEMORY leaves PSW alone, unless PSW is the destination. -/
theorem memoryOp_psw {i : Instr} {s t : State} (hd : i.destination ≠ some (.reg .psw))
    (h : memoryOp i s = some t) : t.regs.psw = s.regs.psw := by
  cases i with
  | load d a =>
    obtain ⟨ea, -, rfl⟩ := Option.map_eq_some_iff.mp h
    exact writeOperand_get_of_ne (r := .psw) (fun e => hd (congrArg some e)) _ _
  | store v a => obtain ⟨ea, -, rfl⟩ := Option.map_eq_some_iff.mp h; rfl
  | _ => obtain rfl := Option.some.inj h; rfl

/-- Settles O16: a run writes registers in EXECUTE and MEMORY only, beyond FETCH. -/
theorem onlyCmpWritesPswImplicitly : Obligations.OnlyCmpWritesPswImplicitly := by
  intro i s t hr h
  obtain ⟨d, hd, rfl⟩ := exec_next_of_ready hr h
  obtain ⟨u, hu, rfl⟩ := Option.map_eq_some_iff.mp hd
  refine ⟨fun hc => ?_, fun hc hdst => (memoryOp_psw hdst hu).trans (executeOp_psw settings hc hdst s.fetched)⟩
  cases i with
  | cmp a b =>
    obtain rfl := Option.some.inj hu
    exact compareFlags_values _ _ _
  | _ => cases hc

/-- FETCH overwrites IR and MAR, so it leaves nothing of what they held. -/
theorem State.fetched_setReg_ir_mar (s : State) (v w : Word) :
    ((s.setReg .ir v).setReg .mar w).fetched = s.fetched := rfl

/-- Settles O19: the data of a run is a function of the state after FETCH. -/
theorem oldIrAndMarReachNoRun : Obligations.OldIrAndMarReachNoRun := by
  intro i s v w hr
  have hsame : exec i ((s.setReg .ir v).setReg .mar w) = exec i s := by
    have hr' : ((s.setReg .ir v).setReg .mar w).ready := hr
    rw [exec_cases, exec_cases, ignoresStart_of_ready hr, ignoresStart_of_ready hr', dataAfter, dataAfter,
      State.fetched_setReg_ir_mar]
    rfl
  exact ⟨fun t h => hsame.trans h, fun r h => hsame.trans h⟩

/-- Settles O22: the cell the STORE leaves is the cell the LOAD reads, after its own FETCH. -/
theorem storeThenLoadReturnsWord : Obligations.StoreThenLoadReturnsWord := by
  intro s a src dst hr hw hsrc
  obtain ⟨hpc, hir, hmar⟩ : src ≠ .pc ∧ src ≠ .ir ∧ src ≠ .mar := by simpa using hsrc
  have hword : readOperand (.reg src) (s.fetched.setReg .mar a) = s.regs.get src :=
    (State.getReg_setReg_ne _ _ hmar).trans (s.fetched_get_of_ne hmar hir hpc)
  obtain ⟨t, ht, -, ⟨hcell, -, -⟩, hdone⟩ := storeStagesAndStoresWord s (.reg src) (.dir a) a hr hw rfl
  have htw : t.mem.wf := (exec_effect ht).keeps_mem_wf hw
  obtain ⟨u, hu, ⟨hdst, hother, hmem⟩, -⟩ := loadStagesAndWritesWord t (.reg dst) (.dir a) a hdone.ready htw rfl
  rw [hword] at hcell
  refine ⟨t, u, ht, hu, hdst.trans hcell, hmem ▸ hcell, ?_⟩
  by_cases hmdr : .mdr = dst
  · subst hmdr
    exact hdst.trans hcell
  · exact (hother .mdr hmdr).trans hcell

/-- The zero flag of another PSW that agrees in bit 6 gives the same jump. -/
theorem jzOp_jnzOp_setReg_psw (cfg : Config) {target : Operand} {psw : Word} {s : State}
    (hn : ¬ target.names .psw) (hz : zeroFlag psw = zeroFlag (s.getReg .psw)) :
    jzOp cfg target (s.setReg .psw psw) = (jzOp cfg target s).setReg .psw psw
      ∧ jnzOp cfg target (s.setReg .psw psw) = (jnzOp cfg target s).setReg .psw psw := by
  have hz' : zeroFlag ((s.setReg .psw psw).getReg .psw) = zeroFlag (s.getReg .psw) := hz
  have hpc : Reg.psw ≠ .pc := by decide
  simp only [jzOp, jnzOp, hz', jumpTarget_setReg hn, State.setReg_comm _ _ _ hpc]
  cases zeroFlag (s.getReg .psw) <;> exact ⟨rfl, rfl⟩

/-- A run with no MEMORY operation commutes with a write to a register FETCH leaves alone, if EXECUTE does. -/
theorem exec_setReg_of_executeOp {i : Instr} {r : Reg} {v : Word} {s t : State} (hs : s.ready)
    (hr : r ≠ .pc ∧ r ≠ .ir ∧ r ≠ .mar) (hm : memoryOp i = noMemory)
    (he : executeOp settings i (s.fetched.setReg r v) = (executeOp settings i s.fetched).setReg r v)
    (h : exec i s = .next t) : exec i (s.setReg r v) = .next (t.setReg r v) := by
  obtain ⟨hpc, hir, hmar⟩ := hr
  rw [exec_of_noMemory hs hm, Host.Outcome.next.injEq] at h
  have hs' : (s.setReg r v).ready := hs
  rw [exec_of_noMemory hs' hm, s.fetched_setReg v hpc hir hmar, he, ← h]
  rfl

/-- Settles O20. At most one of the two jumps, because they test one bit. -/
theorem conditionalJumpsReadOnlyTheZeroBit : Obligations.ConditionalJumpsReadOnlyTheZeroBit := by
  intro s target psw hr hn hbit
  obtain ⟨hjz, hjnz⟩ := jzOp_jnzOp_setReg_psw settings (s := s.fetched) hn hbit
  obtain ⟨t, ht, htregs, -⟩ := jzJumpsOnZeroFlag s target hr
  obtain ⟨u, hu, huregs, -⟩ := jnzJumpsOnClearZeroFlag s target hr
  refine ⟨t, u, ht, hu, exec_setReg_of_executeOp hr (by decide) rfl hjz ht,
    exec_setReg_of_executeOp hr (by decide) rfl hjnz hu, ?_⟩
  rw [htregs, huregs]
  rcases Nat.mod_two_eq_zero_or_one (s.regs.psw.toNat / 64) with h | h
  · exact .inl (if_neg (by omega))
  · exact .inr (if_neg (by omega))

/-! ### Parameters (R6) -/

theorem runWith_congr {cfg cfg' : Config} {i : Instr} {s : State}
    (h : executeOp cfg i s.fetched = executeOp cfg' i s.fetched) : runWith cfg i s = runWith cfg' i s := by
  rw [runWith_eq, runWith_eq, dataAfter, dataAfter, h]

theorem readAs_unsigned_of_lt {w : Word} (h : w.toNat < 2 ^ 31) : readAs .unsigned w = readAs .signed w := by
  rw [readAs, readAs, s32_eq_signedValue, signedValue, if_pos h]

/-- Settles O25: only the quotient of DIV and the flags of CMP read their operands as integers of a sign. -/
theorem readingsAgreeBelowBit31 : Obligations.ReadingsAgreeBelowBit31 := by
  intro cfg i s hdiv hcmp
  apply runWith_congr
  cases i with
  | div d a b =>
    obtain ⟨ha, hb⟩ := hdiv d a b rfl
    simp only [executeOp, divOp, divWords, readAs_unsigned_of_lt ha, readAs_unsigned_of_lt hb]
  | cmp a b =>
    obtain ⟨ha, hb⟩ := hcmp a b rfl
    simp only [executeOp, cmpOp, compareFlags, readAs_unsigned_of_lt ha, readAs_unsigned_of_lt hb]
  | _ => rfl

theorem jumpTarget_address_of_not_isAddress {op : Operand} (h : op.isAddress = false) (s : State) :
    jumpTarget .address op s = jumpTarget .value op s := by
  cases op with
  | imm _ => rfl
  | reg _ => rfl
  | dir _ => cases h
  | ind _ => cases h

/-- Settles O26: only the three jumps read the mode, and only for their target. -/
theorem jumpModesAgreeOnImmediateAndRegister : Obligations.JumpModesAgreeOnImmediateAndRegister := by
  intro cfg i s h
  apply runWith_congr
  cases i with
  | jmp g => simp only [executeOp, jmpOp, jumpTarget_address_of_not_isAddress (h g (.inl rfl))]
  | jz g => simp only [executeOp, jzOp, jumpTarget_address_of_not_isAddress (h g (.inr (.inl rfl)))]
  | jnz g => simp only [executeOp, jnzOp, jumpTarget_address_of_not_isAddress (h g (.inr (.inr rfl)))]
  | _ => rfl

end Sys2Proof.Machine

/-! SUPPORT. The phases of one run (spec/40_phase_engine.md R131, R136 to R141, R144, R145): its trace, its ticks,
and that five ticks are the run as one function. -/

namespace Sys2Proof.Machine

/-! ### The trace of a run (R144) -/

@[simp] theorem executeOp_phase (cfg : Config) (i : Instr) (s : State) : (executeOp cfg i s).phase = s.phase := by
  rw [executeOp_frame]

@[simp] theorem executeOp_stepIndex (cfg : Config) (i : Instr) (s : State) :
    (executeOp cfg i s).stepIndex = s.stepIndex := by
  rw [executeOp_frame]

@[simp] theorem executeOp_signals (cfg : Config) (i : Instr) (s : State) :
    (executeOp cfg i s).signals = s.signals := by
  rw [executeOp_frame]

theorem memoryOp_phase {i : Instr} {s t : State} (h : memoryOp i s = some t) : t.phase = s.phase := by
  rw [memoryOp_frame h]

theorem memoryOp_stepIndex {i : Instr} {s t : State} (h : memoryOp i s = some t) : t.stepIndex = s.stepIndex := by
  rw [memoryOp_frame h]

theorem memoryOp_signals {i : Instr} {s t : State} (h : memoryOp i s = some t) : t.signals = s.signals := by
  rw [memoryOp_frame h]

/-- A well-formed instruction has a trace of five records, one for the body of each phase. -/
theorem exists_runTrace {i : Instr} (hw : i.wf = true) (cfg : Config) (s : State) :
    ∃ f d e m w, runTrace cfg i s = some [f, d, e, m, w] := by
  obtain ⟨m, hm⟩ : ∃ m, memoryBody i (memoryOp i) (deactAll (executeBody (executeOp cfg i)
      (deactAll (decodeBody cfg i (deactAll (fetchBody (enterRun i s))))))) = some m :=
    Option.isSome_iff_exists.mp (by rw [memoryBody, memoryOp_isSome, hw])
  exact ⟨_, _, _, _, _, Option.map_eq_some_iff.mpr ⟨m, hm, rfl⟩⟩

theorem runTrace_phase {cfg : Config} {i : Instr} {s : State} {l : List TraceRecord} (h : runTrace cfg i s = some l) :
    l.map TraceRecord.phase = [.fetch, .decode, .execute, .memory, .writeback] := by
  obtain ⟨m, hm, rfl⟩ := Option.map_eq_some_iff.mp h
  simp only [List.map, recordOf, executeBody, executeOp_phase, beginPhase_phase, writebackBody_eq, memoryOp_phase hm]
  rfl

theorem runTrace_step {cfg : Config} {i : Instr} {s : State} {l : List TraceRecord} (h : runTrace cfg i s = some l) :
    l.map TraceRecord.step = [1, 2, 3, 4, 5] := by
  obtain ⟨m, hm, rfl⟩ := Option.map_eq_some_iff.mp h
  simp only [List.map, recordOf, executeBody, executeOp_stepIndex, beginPhase_stepIndex, writebackBody_eq,
    memoryOp_stepIndex hm]
  rfl

/-- The signals of a run: FETCH's three, then the set of the type, to which WRITEBACK adds register-write. -/
theorem runTrace_signals {cfg : Config} {i : Instr} {s : State} {l : List TraceRecord}
    (h : runTrace cfg i s = some l) :
    l.map TraceRecord.signals =
      [{ ControlSignals.idle with memRead := true, pcWrite := true, irWrite := true },
       cfg.decodeSignals i.type, cfg.decodeSignals i.type, cfg.decodeSignals i.type,
       { cfg.decodeSignals i.type with
         regWrite := writesRegister i.type || (cfg.decodeSignals i.type).regWrite }] := by
  obtain ⟨m, hm, rfl⟩ := Option.map_eq_some_iff.mp h
  have hsignals : m.signals = cfg.decodeSignals i.type := by
    simp only [memoryOp_signals hm, beginPhase_signals, deactAll_signals, executeBody, executeOp_signals]
    rfl
  simp only [List.map, recordOf, executeBody, executeOp_signals, writebackBody_eq, deactAll_signals, hsignals]
  rfl

/-- The registers and memory a trace shows: DECODE's are FETCH's, and WRITEBACK's are MEMORY's and those of the
completed run. -/
theorem runTrace_data {cfg : Config} {i : Instr} {s t : State} {f d e m w : TraceRecord}
    (h : runTrace cfg i s = some [f, d, e, m, w]) (ht : runWith cfg i s = some t) :
    (d.regs = f.regs ∧ d.mem = f.mem) ∧ (w.regs = m.regs ∧ w.mem = m.mem) ∧ w.regs = t.regs ∧ w.mem = t.mem := by
  obtain ⟨u, hu, hrecords⟩ := Option.map_eq_some_iff.mp h
  obtain ⟨v, hv, rfl⟩ := Option.map_eq_some_iff.mp ht
  obtain ⟨u', hu', rfl⟩ := Option.map_eq_some_iff.mp hv
  obtain rfl : u' = u := Option.some.inj (hu'.symm.trans hu)
  simp only [List.cons.injEq, and_true] at hrecords
  obtain ⟨rfl, rfl, -, rfl, rfl⟩ := hrecords
  simp [recordOf, decodeBody, writebackBody_eq]

/-- Settles O30: each record is the body of its phase, and the run is the same bodies. -/
theorem traceHasFiveRecordsInOrder : Obligations.TraceHasFiveRecordsInOrder := by
  intro i s t hr hw h
  obtain ⟨f, d, e, m, w, htrace⟩ := exists_runTrace hw settings s
  obtain ⟨⟨hdr, hdm⟩, ⟨hwr, hwm⟩, htr, htm⟩ :=
    runTrace_data htrace ((execIsTheRunUnderTheSettings i s t hw hr).mp h)
  have hactive := runTrace_active htrace
  simp only [List.map, List.cons.injEq] at hactive
  obtain ⟨-, hd, he, -⟩ := hactive
  exact ⟨f, d, e, m, w, htrace, runTrace_phase htrace, runTrace_step htrace, hdr, hdm, hwr, hwm, htr, htm, hd, he⟩

/-- Settles O5: the signals of the trace are those of the type, whatever the divisor. -/
theorem divByZeroWritesNothing : Obligations.DivByZeroWritesNothing := by
  intro s dst src1 src2 hr hz
  have he : executeOp settings (.div dst src1 src2) s.fetched = s.fetched := if_pos hz
  obtain ⟨f, d, e, m, w, htrace⟩ := exists_runTrace (i := .div dst src1 src2) rfl settings s
  have hsignals := runTrace_signals htrace
  simp only [List.map, List.cons.injEq] at hsignals
  obtain ⟨-, -, hes, -, hws, -⟩ := hsignals
  refine ⟨exec_leaves_regs hr rfl he, f, d, e, m, w, htrace, ?_, ?_⟩
  · rw [hes]
    rfl
  · rw [hws]
    rfl

/-- Settles O14: the run leaves what FETCH does, and the trace shows the type's idle signals. -/
theorem nopOnlyFetches : Obligations.NopOnlyFetches := by
  refine ⟨fun s hr => ?_, by decide⟩
  obtain ⟨t, ht, hregs, hmem, hdone⟩ := exec_leaves_regs (i := .nop) (x := s.fetched.regs) hr rfl rfl
  obtain ⟨f, d, e, m, w, htrace⟩ := exists_runTrace (i := .nop) rfl settings s
  have hsignals := runTrace_signals htrace
  have hactive := runTrace_active htrace
  simp only [List.map, List.cons.injEq] at hsignals hactive
  obtain ⟨-, -, -, -, hws, -⟩ := hsignals
  obtain ⟨-, -, -, -, hwa, -⟩ := hactive
  refine ⟨t, ht, ?_⟩
  rw [hregs]
  exact ⟨rfl, rfl, rfl, fun _ => s.fetched_get_of_ne, hmem, hdone, f, d, e, m, w, htrace, hwa, hws⟩

/-! ### A tick (R131) -/

/-- Settles O34: the step number tells the phase the tick performs. -/
theorem quietPhasesChangeNoRegisterAndNoCell : Obligations.QuietPhasesChangeNoRegisterAndNoCell := by
  intro s t hrun h
  rcases tick_eq_next_iff.mp h with ⟨hidle, -⟩ | ⟨-, i, p, hcur, hp, ht⟩
  · exact absurd (hidle.symm.trans hrun) Bool.false_ne_true
  refine ⟨?_, fun hstep hdata => ?_, fun hstep hother => ?_⟩
  · rintro (hstep | hstep)
    · rw [hstep] at hp
      obtain rfl : .decode = p := Option.some.inj hp
      obtain rfl := Option.some.inj ht
      exact ⟨rfl, rfl⟩
    · rw [hstep] at hp
      obtain rfl : .writeback = p := Option.some.inj hp
      obtain rfl := Option.some.inj ht
      exact ⟨writebackPhase_regs i s, writebackPhase_mem i s⟩
  · rw [hstep] at hp
    obtain rfl : .execute = p := Option.some.inj hp
    obtain rfl := Option.some.inj ht
    obtain ⟨d, a, hi | hi⟩ := hdata
    · obtain rfl := Option.some.inj (hcur.symm.trans hi)
      exact ⟨rfl, rfl⟩
    · obtain rfl := Option.some.inj (hcur.symm.trans hi)
      exact ⟨rfl, rfl⟩
  · rw [hstep] at hp
    obtain rfl : .memory = p := Option.some.inj hp
    cases i with
    | load d a => exact absurd hcur (hother d a).1
    | store d a => exact absurd hcur (hother d a).2
    | _ => obtain rfl := Option.some.inj ht; exact ⟨rfl, rfl⟩

/-! ### A phase does not read the host's inputs -/

theorem executeOp_inbox (cfg : Config) (i : Instr) (s : State) (l : List HostEvent) :
    executeOp cfg i { s with inbox := l } = { executeOp cfg i s with inbox := l } := by
  obtain ⟨hregs, hmem, hframe⟩ := executeOp_actsOnData cfg i { s with inbox := l } s rfl rfl
  rw [hframe, hregs, hmem, executeOp_frame cfg i s]

theorem memoryOp_inbox (i : Instr) (s : State) (l : List HostEvent) :
    memoryOp i { s with inbox := l } = (memoryOp i s).map fun t => { t with inbox := l } := by
  obtain ⟨hdata, -⟩ := memoryOp_actsOnData i { s with inbox := l } s rfl rfl
  cases h : memoryOp i s with
  | none =>
    rw [h] at hdata
    exact Option.map_eq_none_iff.mp hdata
  | some t =>
    rw [h] at hdata
    obtain ⟨u, hu, hd⟩ := Option.map_eq_some_iff.mp hdata
    obtain ⟨hregs, hmem⟩ := Prod.mk.inj hd
    rw [hu, memoryOp_frame hu, hregs, hmem, memoryOp_frame h]
    rfl

theorem performPhase_inbox (i : Instr) (p : Phase) (s : State) (l : List HostEvent) :
    performPhase i p { s with inbox := l } = (performPhase i p s).map fun t => { t with inbox := l } := by
  cases p with
  | fetch => rfl
  | decode => rfl
  | execute =>
    exact congrArg (fun t => some (deactAll t)) (executeOp_inbox settings i (beginPhase .execute _ s) l)
  | memory =>
    have h := congrArg (Option.map deactAll) (memoryOp_inbox i (beginPhase .memory (memoryComponents i.type) s) l)
    rw [Option.map_map] at h
    rw [performPhase, performPhase, memoryPhase, memoryPhase, Option.map_map]
    exact h
  | writeback =>
    simp only [performPhase, writebackPhase, writebackBody_eq]
    rfl

/-! ### The ticks of a run -/

/-- A run of `i` after `n` phases: `i` in flight at step `n`, still running until the fifth (R34, R141). -/
def InFlight (i : Instr) (n : Nat) (s : State) : Prop :=
  s.cur = some i ∧ s.stepIndex.val = n ∧ (s.running = true ↔ n < 5)

theorem enterRun_inFlight (i : Instr) (s : State) : InFlight i 0 (enterRun i s) := by
  simp [InFlight]

theorem Phase.number_eq_five_iff {p : Phase} : p.number.val = 5 ↔ p = .writeback := by
  cases p <;> decide

/-- The next phase of a run in flight is there to perform, and leaves the run one phase further on. -/
theorem InFlight.exists_performPhase {i : Instr} {n : Nat} {s : State} (h : InFlight i n s) (hw : i.wf = true)
    (hn : n < 5) :
    ∃ p t, nextPhase s.stepIndex = some p ∧ performPhase i p s = some t ∧ InFlight i (n + 1) t := by
  obtain ⟨hcur, hstep, hrun⟩ := h
  obtain ⟨p, hp⟩ := nextPhase_of_lt (hstep.trans_lt hn)
  obtain ⟨t, ht⟩ := performPhase_of_wf hw p s
  have hnumber : p.number.val = n + 1 := (nextPhase_number hp).trans (congrArg (· + 1) hstep)
  have hlast : p = .writeback ↔ n + 1 = 5 := by rw [← Phase.number_eq_five_iff, hnumber]
  refine ⟨p, t, hp, ht, ?_⟩
  rw [performPhase_frame ht]
  refine ⟨hcur, hnumber, ?_⟩
  simp only [hlast]
  split
  · next h5 => simp [h5]
  · next h5 => rw [hrun]; omega

/-- The next `n` phases of a run. -/
def performPhases (i : Instr) : Nat → State → Option State
  | 0, s => some s
  | n + 1, s => (nextPhase s.stepIndex).bind fun p => (performPhase i p s).bind (performPhases i n)

theorem performPhases_succ {i : Instr} {p : Phase} {s : State} (h : nextPhase s.stepIndex = some p) (n : Nat) :
    performPhases i (n + 1) s = (performPhase i p s).bind (performPhases i n) := by
  rw [performPhases, h, Option.bind_some]

/-- The run as one function is its five phases in turn (R145). -/
theorem performPhases_five (i : Instr) (s : State) : performPhases i 5 (enterRun i s) = runWith settings i s := by
  have hexec (u : State) : (executePhase (executeOp settings i) u).stepIndex = 3 :=
    (executeOp_stepIndex settings i _).trans (beginPhase_stepIndex ..)
  rw [performPhases_succ (p := .fetch) rfl, performPhase, Option.bind_some, performPhases_succ (p := .decode) rfl,
    performPhase, Option.bind_some, performPhases_succ (p := .execute) rfl, performPhase, Option.bind_some,
    performPhases_succ (p := .memory) (by rw [hexec]; rfl), performPhase, runWith, completeRun]
  cases hm : memoryPhase i (memoryOp i)
      (executePhase (executeOp settings i) (decodePhase settings i (fetchPhase (enterRun i s)))) with
  | none => rfl
  | some m =>
    have hstep : m.stepIndex = 4 := by rw [performPhase_frame (p := .memory) hm]; rfl
    rw [Option.bind_some, performPhases_succ (p := .writeback) (by rw [hstep]; rfl)]
    rfl

theorem core_run_succ {s t : State} (h : step s = .next t) (n : Nat) : core.run (n + 1) s = core.run n t := by
  have hstep : core.step s = .next t := h
  simp only [Host.Core.run, hstep]

/-- A pending tick performs the next phase. -/
theorem step_tick {i : Instr} {n : Nat} {p : Phase} {s t : State} {l : List HostEvent} (h : InFlight i n s)
    (hn : n < 5) (hp : nextPhase s.stepIndex = some p) (ht : performPhase i p s = some t) :
    step { s with inbox := .tick :: l } = .next { t with inbox := l } := by
  obtain ⟨hcur, -, hrun⟩ := h
  have hphase : performPhase i p { s with inbox := l } = some { t with inbox := l } := by
    rw [performPhase_inbox, ht]
    rfl
  exact tick_eq_next_iff.mpr (.inr ⟨hrun.mpr hn, i, p, hcur, hp, hphase⟩)

/-- As many ticks as phases are left perform that many phases. -/
theorem core_run_ticks {i : Instr} (hw : i.wf = true) (k : Nat) {n : Nat} {s : State} (h : InFlight i n s)
    (hk : n + k ≤ 5) (l : List HostEvent) :
    ∃ t, performPhases i k s = some t ∧ InFlight i (n + k) t
      ∧ core.run k { s with inbox := List.replicate k .tick ++ l } = .next { t with inbox := l } := by
  induction k generalizing n s with
  | zero => exact ⟨s, rfl, h, rfl⟩
  | succ k ih =>
    obtain ⟨p, u, hp, hu, hflight⟩ := h.exists_performPhase hw (by omega)
    obtain ⟨t, ht, htflight, hrun⟩ := ih hflight (by omega)
    refine ⟨t, ?_, by rwa [← Nat.succ_add_eq_add_succ], ?_⟩
    · rw [performPhases_succ hp, hu, Option.bind_some, ht]
    · rw [List.replicate_succ, List.cons_append, core_run_succ (step_tick h (by omega) hp hu), hrun]

/-- A ready Engine enters the run of a well-formed instruction on a pending `start`. -/
theorem step_start {s : State} {p : Port} {i : Instr} (l : List HostEvent) (hr : s.ready)
    (hp : decodePort p = .ok i) (hw : i.wf = true) :
    step { s with inbox := .start p :: l } = .next { enterRun i s with inbox := l } := by
  have hig : State.ignoresStart { s with inbox := l } = false := ignoresStart_of_ready hr
  rw [step_of_cons rfl, hostEvent, acceptPort, if_neg (by simp [hig]), hp]
  exact if_pos hw

/-- Settles O31: the ticks perform the five phases, which are the run as one function. -/
theorem fiveTicksCompleteTheRun : Obligations.FiveTicksCompleteTheRun := by
  intro s p i rest hr hp hw
  have hr' : State.ready { s with inbox := rest } := hr
  obtain ⟨t, ht, -, hrun⟩ := core_run_ticks hw 5 (enterRun_inFlight i { s with inbox := rest }) le_rfl rest
  rw [performPhases_five] at ht
  obtain ⟨d, -, hd⟩ := Option.map_eq_some_iff.mp ((runWith_eq settings i _).symm.trans ht)
  have hinbox : { t with inbox := rest } = t := by rw [← hd]; rfl
  refine ⟨t, ?_, (execIsTheRunUnderTheSettings i _ t hw hr').mpr ht⟩
  calc core.run 6 { s with inbox := [.start p, .tick, .tick, .tick, .tick, .tick] ++ rest }
      = core.run 5 { enterRun i s with inbox := List.replicate 5 .tick ++ rest } :=
        core_run_succ (step_start _ hr hp hw) 5
    _ = .next t := hrun.trans (congrArg _ hinbox)

/-- Settles O32: `n` ticks perform `n` phases, and the run stays in flight until the fifth. -/
theorem runCompletesInExactlyFivePhases : Obligations.RunCompletesInExactlyFivePhases := by
  intro s p i n hr hp hw hn
  obtain ⟨t, -, hflight, hrun⟩ := core_run_ticks hw n (enterRun_inFlight i s) (by omega) []
  rw [Nat.zero_add] at hflight
  rw [List.append_nil] at hrun
  exact ⟨_, (core_run_succ (step_start _ hr hp hw) n).trans hrun, hflight⟩

end Sys2Proof.Machine

/-! SUPPORT. The inputs of the host (spec/40_phase_engine.md R131 to R133, R142, R143, spec/60_exceptions.md,
spec/30_encoding.md R96): what each does to a ready Engine and to one that is not, and that no step faults. -/

namespace Sys2Proof.Machine

/-! ### A presented bundle -/

section Bundle

variable {s : State} {p : Port} {accepted : Instr → State → Host.Outcome State Fault Refusal}

theorem acceptPort_of_not_ready (hr : ¬ s.ready) : acceptPort p accepted s = .next s := by
  rw [acceptPort, if_pos (ignoresStart_of_not_ready hr)]

theorem acceptPort_of_ok {i : Instr} (hr : s.ready) (hp : decodePort p = .ok i) :
    acceptPort p accepted s = accepted i s := by
  simp [acceptPort, ignoresStart_of_ready hr, hp]

theorem acceptPort_of_precondition {c : PreconditionCause} (hr : s.ready)
    (hp : decodePort p = .error (.precondition c)) :
    acceptPort p accepted s = .next (s.raisePreconditionFault c) := by
  simp [acceptPort, ignoresStart_of_ready hr, hp]

theorem acceptPort_eq_fault {r : Fault} (h : acceptPort p accepted s = .fault r) :
    ∃ i, accepted i s = .fault r := by
  unfold acceptPort at h
  split at h
  · cases h
  · split at h
    · next i _ => exact ⟨i, h⟩
    · cases h
    · cases h

theorem acceptPort_eq_refused {r : Refusal} (h : acceptPort p accepted s = .refused r) :
    s.ready ∧ ((r = .registerIndexOutOfRange ∧ decodePort p = .error .registerIndex)
      ∨ ∃ i, decodePort p = .ok i ∧ accepted i s = .refused r) := by
  unfold acceptPort at h
  split at h
  · cases h
  · next hg =>
    refine ⟨ready_of_ignoresStart_eq_false (by simpa using hg), ?_⟩
    split at h
    · next i hp => exact .inr ⟨i, hp, h⟩
    · cases h
    · next hp => exact .inl ⟨(Host.Outcome.refused.inj h).symm, hp⟩

end Bundle

theorem startRun_of_wf {i : Instr} (hw : i.wf = true) (s : State) : startRun i s = .next (enterRun i s) :=
  if_pos hw

theorem hostQuiet_of_not_ready {s : State} (hr : ¬ s.ready) : hostQuiet s = .next s := by
  rw [hostQuiet, if_pos (ignoresStart_of_not_ready hr)]

theorem hostQuiet_of_supply {s : State} {i : Instr} (hr : s.ready) (h : supplyPC s.program s.regs.pc = some i) :
    hostQuiet s = exec i s := by
  simp [hostQuiet, ignoresStart_of_ready hr, h]

theorem hostQuiet_of_no_supply {s : State} (h : supplyPC s.program s.regs.pc = none) : hostQuiet s = .next s := by
  simp [hostQuiet, h]

theorem supplyPC_eq_none_iff {program : List Instr} {pc : Word} :
    supplyPC program pc = none ↔ pc.toNat % 4 ≠ 0 ∨ program.length ≤ pc.toNat / 4 := by
  unfold supplyPC
  split
  · next h => simp [h]
  · next h => simp [h]

/-! ### The inputs one by one -/

/-- Settles O33: `abort` clears `running`, whether or not it was set. -/
theorem abortOnlyStopsTheRun : Obligations.AbortOnlyStopsTheRun := by
  intro s rest h
  rw [step_of_cons h, hostEvent, abortRun_eq]

/-- Settles O35: a ready Engine accepts the bundle, or the instruction the supply names. -/
theorem stepRunsTheDecodedInstruction : Obligations.StepRunsTheDecodedInstruction := by
  intro s i hr
  refine ⟨fun p rest h hp => ?_, fun p rest h hp hw => ?_, fun h halign hi => ?_⟩
  · rw [step_of_cons h]
    exact acceptPort_of_ok (s := { s with inbox := rest }) hr hp
  · rw [step_of_cons h]
    exact (acceptPort_of_ok (s := { s with inbox := rest }) hr hp).trans (startRun_of_wf hw _)
  · rw [step_of_nil h]
    exact hostQuiet_of_supply hr (by rw [supplyPC, if_pos halign, hi])

/-- Settles O36: either the supply names no instruction or the Engine does not take one. -/
theorem quietHostChangesNothing : Obligations.QuietHostChangesNothing := by
  intro s h hquiet
  rw [step_of_nil h]
  rcases hquiet with halign | hend | hr
  · exact hostQuiet_of_no_supply (supplyPC_eq_none_iff.mpr (.inl halign))
  · exact hostQuiet_of_no_supply (supplyPC_eq_none_iff.mpr (.inr hend))
  · exact hostQuiet_of_not_ready hr

/-- Settles O37: the bundle is not looked at. -/
theorem startIsIgnoredWhenNotReady : Obligations.StartIsIgnoredWhenNotReady := by
  intro s p rest hr h
  have hr' : ¬ State.ready { s with inbox := rest } := hr
  rcases h with h | h <;> rw [step_of_cons h] <;> exact acceptPort_of_not_ready hr'

/-- A bundle that fails a check latches the check's cause, on a `start` as on a `run` (R133, R234). -/
theorem step_of_precondition {s : State} {p : Port} {rest : List HostEvent} {c : PreconditionCause} (hr : s.ready)
    (h : s.inbox = .start p :: rest ∨ s.inbox = .run p :: rest) (hp : decodePort p = .error (.precondition c)) :
    step s = .next { s with inbox := rest, fault := some c } := by
  have hr' : State.ready { s with inbox := rest } := hr
  rcases h with h | h <;> rw [step_of_cons h] <;> exact acceptPort_of_precondition hr' hp

/-- Settles O38: the decoder makes the checks in the order presence, type, count. -/
theorem preconditionFaultChangesOnlyFault : Obligations.PreconditionFaultChangesOnlyFault := by
  intro s p rest hr h
  refine ⟨by rw [State.faultCode, hr.2]; rfl, fun hv => ?_, fun hv ht => ?_, fun hv ht => ?_⟩
  · exact ⟨_, step_of_precondition hr h (decodePort_of_not_valid hv), rfl, rfl⟩
  · exact ⟨_, step_of_precondition hr h (decodePort_of_unknownType hv ht), rfl, rfl⟩
  · obtain ⟨y, hy, hn⟩ := ht
    exact ⟨_, step_of_precondition hr h (decodePort_of_arity_ne hv hy hn), rfl, rfl⟩

/-- Settles O40: the reset values are the model's own. -/
theorem resetReinitialisesTheEngine : Obligations.ResetReinitialisesTheEngine := by
  intro s rest h
  refine ⟨_, step_of_cons h, rfl, rfl, rfl, fun r hr => State.reset_get_of_ne_sp hr, Memory.read_empty, rfl, rfl, rfl,
    rfl, rfl, rfl, rfl, rfl⟩

/-! ### A latched fault (R235) -/

/-- No run is in progress while a fault is latched. -/
theorem running_eq_false_of_goneWrong {s : State} (ho : s.runInOrder) (hf : s.goneWrong) : s.running = false := by
  by_contra hrun
  obtain ⟨-, -, hnone⟩ := ho (by simpa using hrun)
  exact hf hnone

/-- Without a run and with a fault latched, no input but a reset does anything. -/
theorem hostEvent_of_goneWrong {e : HostEvent} {s : State} (hrun : s.running = false) (hf : s.goneWrong)
    (he : e ≠ .reset) : hostEvent e s = .next s := by
  have hr : ¬ s.ready := fun hr => hf hr.2
  cases e with
  | run p => exact acceptPort_of_not_ready hr
  | start p => exact acceptPort_of_not_ready hr
  | tick => exact tick_eq_next_iff.mpr (.inl ⟨hrun, rfl⟩)
  | abort => rw [hostEvent, abortRun_eq, ← hrun]
  | reset => exact absurd rfl he

/-- Settles O39: a latched fault keeps the Engine idle and unready. -/
theorem faultIsStickyUntilReset : Obligations.FaultIsStickyUntilReset := by
  rintro s ⟨-, -, ho, -⟩ hf
  have hrun := running_eq_false_of_goneWrong ho hf
  cases hin : s.inbox with
  | nil =>
    refine ⟨s, (step_of_nil hin).trans (hostQuiet_of_not_ready fun hr => hf hr.2), nofun, fun _ => ?_⟩
    rw [List.tail_nil, ← hin]
  | cons e rest =>
    by_cases he : e = .reset
    · subst he
      exact ⟨_, step_of_cons hin, fun _ => rfl, fun hne => absurd rfl hne⟩
    · refine ⟨{ s with inbox := rest }, ?_, fun h => absurd (Option.some.inj h) he, fun _ => rfl⟩
      rw [step_of_cons hin]
      exact hostEvent_of_goneWrong (s := { s with inbox := rest }) hrun hf he

/-! ### Faults and refusals -/

theorem exec_ne_fault (i : Instr) (s : State) (r : Fault) : exec i s ≠ .fault r := by
  intro h
  rw [exec_cases] at h
  split at h
  · cases h
  · split at h <;> cases h

theorem exec_eq_refused {i : Instr} {s : State} {r : Refusal} (h : exec i s = .refused r) :
    s.ready ∧ i.wf = false ∧ r = .addressOperandNotAdmitted := by
  rw [exec_cases] at h
  split at h
  · cases h
  · next hg =>
    split at h
    · cases h
    · next hnone =>
      refine ⟨ready_of_ignoresStart_eq_false (by simpa using hg), ?_, (Host.Outcome.refused.inj h).symm⟩
      rw [← dataAfter_isSome settings i s, hnone]
      rfl

theorem startRun_ne_fault (i : Instr) (s : State) (r : Fault) : startRun i s ≠ .fault r := by
  unfold startRun
  split <;> nofun

theorem startRun_eq_refused {i : Instr} {s : State} {r : Refusal} (h : startRun i s = .refused r) :
    i.wf = false ∧ r = .addressOperandNotAdmitted := by
  unfold startRun at h
  split at h
  · cases h
  · next hw => exact ⟨by simpa using hw, (Host.Outcome.refused.inj h).symm⟩

/-- A tick in a state of the invariant performs its phase, or finds no run to advance. -/
theorem exists_tick {s : State} (ho : s.runInOrder) : ∃ t, tick s = .next t := by
  cases hrun : s.running with
  | false => exact ⟨s, tick_eq_next_iff.mpr (.inl ⟨hrun, rfl⟩)⟩
  | true =>
    obtain ⟨hcur, hstep, -⟩ := ho hrun
    obtain ⟨i, hi, hw⟩ := Option.map_eq_some_iff.mp hcur
    obtain ⟨p, hp⟩ := nextPhase_of_lt hstep
    obtain ⟨t, ht⟩ := performPhase_of_wf hw p s
    exact ⟨t, tick_eq_next_iff.mpr (.inr ⟨hrun, i, p, hi, hp, ht⟩)⟩

theorem hostQuiet_ne_fault (s : State) (r : Fault) : hostQuiet s ≠ .fault r := by
  unfold hostQuiet
  split
  · nofun
  · split
    · exact exec_ne_fault _ s r
    · nofun

theorem hostQuiet_eq_refused {s : State} {r : Refusal} (h : hostQuiet s = .refused r) :
    ∃ i, supplyPC s.program s.regs.pc = some i ∧ exec i s = .refused r := by
  unfold hostQuiet at h
  split at h
  · cases h
  · split at h
    · next i hi => exact ⟨i, hi, h⟩
    · cases h

theorem hostEvent_ne_fault {e : HostEvent} {s : State} (ho : s.runInOrder) (r : Fault) : hostEvent e s ≠ .fault r := by
  intro h
  cases e with
  | run p => obtain ⟨i, hi⟩ := acceptPort_eq_fault h; exact exec_ne_fault i s r hi
  | start p => obtain ⟨i, hi⟩ := acceptPort_eq_fault h; exact startRun_ne_fault i s r hi
  | tick => obtain ⟨t, ht⟩ := exists_tick ho; cases ht.symm.trans h
  | abort => cases h
  | reset => cases h

/-- Settles O45: only a tick can fault, and in the invariant it does not. -/
theorem noStepFaults : Obligations.NoStepFaults := by
  rintro s r ⟨-, -, ho, -⟩ h
  cases hin : s.inbox with
  | nil => exact hostQuiet_ne_fault s r ((step_of_nil hin).symm.trans h)
  | cons e rest =>
    exact hostEvent_ne_fault (s := { s with inbox := rest }) ho r ((step_of_cons hin).symm.trans h)

/-- An input is refused for a bundle that names no register, or for an instruction that is not well formed. -/
theorem hostEvent_eq_refused {e : HostEvent} {s : State} {r : Refusal} (ho : s.runInOrder)
    (h : hostEvent e s = .refused r) :
    s.ready ∧ ∃ p, (e = .run p ∨ e = .start p)
      ∧ ((r = .registerIndexOutOfRange ∧ decodePort p = .error .registerIndex)
        ∨ (r = .addressOperandNotAdmitted ∧ ∃ i, decodePort p = .ok i ∧ i.wf = false)) := by
  cases e with
  | run p =>
    obtain ⟨hr, hindex | ⟨i, hp, hi⟩⟩ := acceptPort_eq_refused h
    · exact ⟨hr, p, .inl rfl, .inl hindex⟩
    · obtain ⟨-, hw, hreason⟩ := exec_eq_refused hi
      exact ⟨hr, p, .inl rfl, .inr ⟨hreason, i, hp, hw⟩⟩
  | start p =>
    obtain ⟨hr, hindex | ⟨i, hp, hi⟩⟩ := acceptPort_eq_refused h
    · exact ⟨hr, p, .inr rfl, .inl hindex⟩
    · obtain ⟨hw, hreason⟩ := startRun_eq_refused hi
      exact ⟨hr, p, .inr rfl, .inr ⟨hreason, i, hp, hw⟩⟩
  | tick => obtain ⟨t, ht⟩ := exists_tick ho; cases ht.symm.trans h
  | abort => cases h
  | reset => cases h

/-- Settles O46: in the invariant a tick is not refused, so the refusal is of what was submitted. -/
theorem onlyExcludedInstructionsAreRefused : Obligations.OnlyExcludedInstructionsAreRefused := by
  rintro s r ⟨-, -, ho, -⟩ h
  cases hin : s.inbox with
  | nil =>
    obtain ⟨i, hi, hexec⟩ := hostQuiet_eq_refused ((step_of_nil hin).symm.trans h)
    obtain ⟨hr, hw, hreason⟩ := exec_eq_refused hexec
    exact ⟨hr, .inr ⟨rfl, hreason, i, hi, hw⟩⟩
  | cons e rest =>
    obtain ⟨hr, p, he, hreason⟩ :=
      hostEvent_eq_refused (s := { s with inbox := rest }) ho ((step_of_cons hin).symm.trans h)
    refine ⟨hr, .inl ⟨p, rest, ?_, hreason⟩⟩
    rcases he with rfl | rfl
    · exact .inl rfl
    · exact .inr rfl

/-! ### The host's side of the state -/

theorem Effect.keeps_inputs {s t : State} (h : Effect s t) : t.inbox = s.inbox ∧ t.program = s.program := by
  cases h with
  | performs i p _ _ _ _ ht => rw [performPhase_frame ht]; exact ⟨rfl, rfl⟩
  | _ => exact ⟨rfl, rfl⟩

/-- Settles O47: no effect of a step touches the host's side beyond the input consumed. -/
theorem stepConsumesOneInput : Obligations.StepConsumesOneInput :=
  fun _ _ h => (step_effect h).keeps_inputs

/-! ### Where a step stores (R44, R62) -/

theorem runStoresAt_congr {s t : State} (hr : s.regs = t.regs) (hm : s.mem = t.mem) (i : Instr) :
    runStoresAt i s = runStoresAt i t := by
  have hregs : s.fetched.regs = t.fetched.regs := by simp [hr, hm]
  rw [runStoresAt, runStoresAt, executeStoresAt_congr hregs hm, memoryStoresAt_congr hregs hm]

theorem exec_storedOnlyAt {i : Instr} {s t : State} (hr : s.ready) (h : exec i s = .next t) :
    StoredOnlyAt (runStoresAt i s) s.mem t.mem := by
  obtain ⟨d, hd, rfl⟩ := exec_next_of_ready hr h
  exact dataAfter_storedOnlyAt hd

/-- The address a phase stores to, if it stores (R138, R139). -/
def phaseStoresAt (i : Instr) (p : Phase) (s : State) : Option Word :=
  match p with
  | .execute => executeStoresAt i s
  | .memory => memoryStoresAt i s
  | .fetch | .decode | .writeback => none

theorem performPhase_storedOnlyAt {i : Instr} {p : Phase} {s t : State} (h : performPhase i p s = some t) :
    StoredOnlyAt (phaseStoresAt i p s) s.mem t.mem := by
  cases p with
  | execute =>
    obtain rfl := Option.some.inj h
    have haddr := executeStoresAt_congr (s := beginPhase .execute { Components.none with alu := true, cu := true } s)
      (t := s) rfl rfl i
    rw [phaseStoresAt, ← haddr]
    exact executeOp_storedOnlyAt settings i _
  | memory =>
    obtain ⟨u, hu, rfl⟩ := Option.map_eq_some_iff.mp h
    have haddr := memoryStoresAt_congr (s := beginPhase .memory (memoryComponents i.type) s) (t := s) rfl rfl i
    rw [phaseStoresAt, ← haddr]
    exact memoryOp_storedOnlyAt (t := u) hu
  | fetch => obtain rfl := Option.some.inj h; exact rfl
  | decode => obtain rfl := Option.some.inj h; exact rfl
  | writeback => obtain rfl := Option.some.inj h; exact writebackPhase_mem i s

theorem stepStoresAt_of_tick {s : State} {rest : List HostEvent} {i : Instr} {p : Phase}
    (hin : s.inbox = .tick :: rest) (hrun : s.running = true) (hcur : s.cur = some i)
    (hp : nextPhase s.stepIndex = some p) : stepStoresAt s = phaseStoresAt i p s := by
  simp only [stepStoresAt, hin, hrun, hcur, hp, if_true]
  cases p <;> rfl

theorem stepStoresAt_of_tick_idle {s : State} {rest : List HostEvent} (hin : s.inbox = .tick :: rest)
    (hrun : s.running = false) : stepStoresAt s = none := by
  simp [stepStoresAt, hin, hrun]

theorem stepStoresAt_of_run {s : State} {p : Port} {rest : List HostEvent} (hin : s.inbox = .run p :: rest) :
    (s.ignoresStart = true → stepStoresAt s = none)
      ∧ (∀ c, decodePort p = .error c → stepStoresAt s = none)
      ∧ (s.ignoresStart = false → ∀ i, decodePort p = .ok i → stepStoresAt s = runStoresAt i s) := by
  refine ⟨fun hg => by simp [stepStoresAt, hin, hg], fun c hp => by simp [stepStoresAt, hin, hp], fun hg i hp => ?_⟩
  simp [stepStoresAt, hin, hg, hp]

/-- An input other than a reset stores where `stepStoresAt` says and nowhere else. -/
theorem hostEvent_storedOnlyAt {s t : State} {e : HostEvent} {rest : List HostEvent} (hin : s.inbox = e :: rest)
    (he : e ≠ .reset) (h : hostEvent e { s with inbox := rest } = .next t) :
    StoredOnlyAt (stepStoresAt s) s.mem t.mem := by
  cases e with
  | run p =>
    obtain ⟨hignored, herror, hok⟩ := stepStoresAt_of_run hin
    rcases acceptPort_eq_next h with ⟨hg, rfl⟩ | ⟨-, c, hp, rfl⟩ | ⟨hg, i, hp, hi⟩
    · rw [hignored hg]
      exact rfl
    · rw [herror _ hp]
      exact rfl
    · have haddr := runStoresAt_congr (s := { s with inbox := rest }) (t := s) rfl rfl i
      rw [hok hg i hp, ← haddr]
      exact exec_storedOnlyAt (ready_of_ignoresStart_eq_false hg) hi
  | start p =>
    have hnone : stepStoresAt s = none := by simp [stepStoresAt, hin]
    rw [hnone]
    rcases acceptPort_eq_next h with ⟨-, rfl⟩ | ⟨-, c, -, rfl⟩ | ⟨-, i, -, hi⟩
    · exact rfl
    · exact rfl
    · obtain ⟨-, rfl⟩ := startRun_eq_next hi
      exact rfl
  | tick =>
    rcases tick_eq_next_iff.mp h with ⟨hrun, rfl⟩ | ⟨hrun, i, p, hcur, hp, ht⟩
    · rw [stepStoresAt_of_tick_idle hin hrun]
      exact rfl
    · rw [performPhase_inbox] at ht
      obtain ⟨u, hu, rfl⟩ := Option.map_eq_some_iff.mp ht
      rw [stepStoresAt_of_tick hin hrun hcur hp]
      exact (performPhase_storedOnlyAt hu :)
  | abort =>
    have hnone : stepStoresAt s = none := by simp [stepStoresAt, hin]
    obtain rfl := Host.Outcome.next.inj h
    rw [hnone, abortRun_eq]
    exact rfl
  | reset => exact absurd rfl he

/-- A step of the supply stores where `stepStoresAt` says and nowhere else. -/
theorem hostQuiet_storedOnlyAt {s t : State} (hin : s.inbox = []) (h : hostQuiet s = .next t) :
    StoredOnlyAt (stepStoresAt s) s.mem t.mem := by
  by_cases hr : s.ready
  · have hg := ignoresStart_of_ready hr
    cases hi : supplyPC s.program s.regs.pc with
    | none =>
      have hnone : stepStoresAt s = none := by simp [stepStoresAt, hin, hi]
      rw [hostQuiet_of_no_supply hi] at h
      obtain rfl := Host.Outcome.next.inj h
      rw [hnone]
      exact rfl
    | some i =>
      have hrun : stepStoresAt s = runStoresAt i s := by simp [stepStoresAt, hin, hg, hi]
      rw [hostQuiet_of_supply hr hi] at h
      rw [hrun]
      exact exec_storedOnlyAt hr h
  · have hnone : stepStoresAt s = none := by simp [stepStoresAt, hin, ignoresStart_of_not_ready hr]
    rw [hostQuiet_of_not_ready hr] at h
    obtain rfl := Host.Outcome.next.inj h
    rw [hnone]
    exact rfl

/-- Settles O42: one lemma for the pending inputs and one for the supply; that an unlisted cell reads 0 is the
canonical form, which the step keeps. -/
theorem keySetRecordsEveryStore : Obligations.KeySetRecordsEveryStore := by
  refine ⟨fun i s t => exec_storedOnlyAt, fun s t hinv h hreset => ⟨?_, fun a ha => ?_⟩⟩
  · cases hin : s.inbox with
    | nil => exact hostQuiet_storedOnlyAt hin ((step_of_nil hin).symm.trans h)
    | cons e rest =>
      refine hostEvent_storedOnlyAt hin (fun he => hreset ?_) ((step_of_cons hin).symm.trans h)
      rw [hin, he, List.head?_cons]
  · obtain ⟨hw, -⟩ := everyStepKeepsTheInvariant s t hinv h
    exact Memory.read_of_not_written hw ha

end Sys2Proof.Machine
